-- ==== Sys2Proof/Word.lean ====
section
/-! DEFINITION. The word types of the block: bytes, the 16-bit fields and CRC register, the 32-bit timestamps.
Every field of the block is unsigned (00_scope.md §4). -/

namespace Sys2Proof

/-- The unit of every access (20_memory.md R46). -/
abbrev Byte := BitVec 8

/-- A u16: the CRC register, msgLen, size, message type, payload length. -/
abbrev Word := BitVec 16

/-- A u32: a message timestamp. -/
abbrev DWord := BitVec 32

end Sys2Proof
end

