-- ==== Sys2Proof/Config.lean ====
section
/-! DEFINITION. The implementation parameters of 00_scope.md §3. They are fixed for the life of the block (R3, R4, R5, R29)
and no operation writes them; State holds them as read-only fields, so a statement about every state holds for every
value of them. -/

namespace Sys2Proof

/-- The parameters a model of the block takes as arguments (00_scope.md §3). -/
structure Params where
  /-- `XOR_KEY[0..15]` (R3, R21). -/
  xorKey : Vector Byte 16
  /-- `CRC_ENFORCE` (R4): drop a packet whose CRC does not compare (R181). -/
  crcEnforce : Bool
  /-- `DISP_RX_CAP` (R5). -/
  dispRxCap : Nat
  /-- `CMD_RX_CAP` (R5). -/
  cmdRxCap : Nat
  deriving DecidableEq, Repr

/-- R5: each capacity admits the largest frame or packet. -/
abbrev Params.wf (p : Params) : Prop := 65540 ≤ p.dispRxCap ∧ 65543 ≤ p.cmdRxCap

/-- The reference key `K_GK` of 00_scope.md R3, which the spec marks as general knowledge. PRESUMED (log entry 1), unsafe. -/
def Config.kGk : Vector Byte 16 :=
  #v[0x16, 0x6C, 0x14, 0xE6, 0x2E, 0x91, 0x0D, 0x40, 0x21, 0x35, 0xD5, 0x40, 0x13, 0x03, 0xE9, 0x80]

/-- The parameter values of the block that `State.reset` describes: those of the programs of 95_test_vectors.md §3.
PRESUMED (the key) and DESIGN CHOICE (the rest), log entry 1, unsafe: the spec leaves all four OPEN. -/
def Config.params : Params :=
  { xorKey := Config.kGk, crcEnforce := false, dispRxCap := 65540, cmdRxCap := 65543 }

end Sys2Proof
end

