-- ==== Sys2Proof/Syntax.lean ====
section
/-! DEFINITION. The instructions: one constructor for each row of spec/opcode_table.json, 12 operations of the host
(30_encoding.md R90) and 12 wire encodings (R63 to R89). -/

namespace Sys2Proof

/-- The kinds of encoding, after the "format" column of spec/opcode_table.json. A byte string has a meaning only under
one of them: the same first byte `0x10` begins the call DISP_INGEST, a diff chunk and a ButtonEvent message. -/
inductive Format where
  /-- A call of the host: selector and operands (R91). -/
  | call
  /-- A display frame `AA 55 …` (R63). -/
  | displayFrame
  /-- What is left of the payload of a Diff frame (R66). -/
  | diffChunk
  /-- A command packet `AB CD …` (R67). -/
  | commandPacket
  /-- A cleartext message (R69). -/
  | message
  /-- Bytes of the transport that belong to no format of the block (R89). -/
  | raw
  deriving DecidableEq, Repr

/-- The classes of display frames (R64). -/
inductive FrameClass where
  | screenshot
  | diff
  | unknown
  deriving DecidableEq, Repr

/-- What follows the type field of a message (R69, R182): `msgLen >= 4` gives a payload-length field and a body;
`msgLen` 2 or 3 gives neither, and a third byte is ignored. -/
inductive MsgTail where
  | short (stray : Option Byte)
  | full (plen : Word) (body : List Byte)
  deriving DecidableEq, Repr

/-- One constructor per row of spec/opcode_table.json. -/
inductive Instr where
  /-- XOR_APPLY (R100). -/
  | xorApply (data : List Byte)
  /-- CRC_INIT (R114). -/
  | crcInit
  /-- CRC_BYTE (R115). -/
  | crcByte (b : Byte)
  /-- CRC_READ (R116). -/
  | crcRead
  /-- CRC16 (R112). -/
  | crc16 (data : List Byte)
  /-- DISP_INGEST (R130). -/
  | dispIngest (data : List Byte)
  /-- DISP_PIXEL (R146). -/
  | dispPixel (x y : Byte)
  /-- DISP_READ (R147). -/
  | dispRead
  /-- PKT_BUILD (R160). -/
  | pktBuild (type : Word) (payload : List Byte)
  /-- PKT_FETCH (R172). -/
  | pktFetch
  /-- CMD_INGEST (R186). -/
  | cmdIngest (data : List Byte)
  /-- RESET (R220). -/
  | reset
  /-- DISP_SCREENSHOT (R64, R65, R140): the 1024 payload bytes. -/
  | dispScreenshot (payload : List Byte)
  /-- DISP_DIFF (R64, R66, R141): the payload, a whole number of 9-byte chunks. -/
  | dispDiff (payload : List Byte)
  /-- DISP_UNKNOWN (R64, R145): the type byte and the payload. -/
  | dispUnknown (type : Byte) (payload : List Byte)
  /-- DIFF_CHUNK (R66, R143): block index below 128 and 8 bytes. -/
  | diffChunk (block : BitVec 7) (data : List Byte)
  /-- DIFF_STOP (R66, R142): the low 7 bits of the block byte (bit 7 is 1), and the bytes of the payload that the stop
  leaves unused: its own 8 data bytes and every later chunk. -/
  | diffStop (block : BitVec 7) (unused : List Byte)
  /-- CMD_PACKET (R67, R172): the obfuscated region (message, then CRC; `msgLen` is its length less 2) as transmitted, and
  the two bytes at the footer's place. -/
  | cmdPacket (region : List Byte) (foot0 foot1 : Byte)
  /-- MSG_SESSION_INIT (R72, R73). -/
  | msgSessionInit (tail : MsgTail)
  /-- MSG_SESSION_INFO (R72, R74). -/
  | msgSessionInfo (tail : MsgTail)
  /-- MSG_BUTTON_EVENT (R72, R75). -/
  | msgButtonEvent (tail : MsgTail)
  /-- MSG_BUTTON_ACK (R72, R76). -/
  | msgButtonAck (tail : MsgTail)
  /-- MSG_OTHER (R77): any other type. -/
  | msgOther (type : Word) (tail : MsgTail)
  /-- KEEPALIVE (R89). -/
  | keepalive
  deriving DecidableEq, Repr

/-- The format a constructor is encoded in. -/
def Instr.format : Instr → Format
  | .xorApply _ => .call
  | .crcInit => .call
  | .crcByte _ => .call
  | .crcRead => .call
  | .crc16 _ => .call
  | .dispIngest _ => .call
  | .dispPixel _ _ => .call
  | .dispRead => .call
  | .pktBuild _ _ => .call
  | .pktFetch => .call
  | .cmdIngest _ => .call
  | .reset => .call
  | .dispScreenshot _ => .displayFrame
  | .dispDiff _ => .displayFrame
  | .dispUnknown _ _ => .displayFrame
  | .diffChunk _ _ => .diffChunk
  | .diffStop _ _ => .diffChunk
  | .cmdPacket _ _ _ => .commandPacket
  | .msgSessionInit _ => .message
  | .msgSessionInfo _ => .message
  | .msgButtonEvent _ => .message
  | .msgButtonAck _ => .message
  | .msgOther _ _ => .message
  | .keepalive => .raw

/-- Why bytes are no instruction of a format. -/
inductive DecodeError where
  /-- The selector is not one of R90 (R207). -/
  | badSelector (sel : Byte)
  /-- The bytes end before the instruction does. -/
  | truncated (format : Format)
  /-- The bytes do not begin as the format begins. -/
  | badMagic (format : Format)
  deriving DecidableEq, Repr

/-- One request of the host: bytes to be read under a format, instruction after instruction (log entry 2). -/
structure Request where
  format : Format
  bytes : List Byte
  deriving DecidableEq, Repr

end Sys2Proof
end

