-- ==== Sys2Proof/Machine/Operands.lean ====
section
/-! DEFINITION. Operand forms: the constants of R60 to R62, the assembled fields of 00_scope.md §4 and 20_memory.md R43, R44,
and the layouts of frames, packets and messages (R63 to R69) that encoder, decoder and meanings share. -/

namespace Sys2Proof.Machine

/-! Constants (R60, R61, R62). -/

/-- `DISP_MAGIC = AA 55`, first byte. -/
def dispMagic0 : Byte := 0xAA#8
/-- `DISP_MAGIC = AA 55`, second byte. -/
def dispMagic1 : Byte := 0x55#8
/-- `CMD_HEADER = AB CD`, first byte. -/
def cmdHeader0 : Byte := 0xAB#8
/-- `CMD_HEADER = AB CD`, second byte. -/
def cmdHeader1 : Byte := 0xCD#8
/-- `CMD_FOOTER = DC BA`, first byte. -/
def cmdFooter0 : Byte := 0xDC#8
/-- `CMD_FOOTER = DC BA`, second byte. -/
def cmdFooter1 : Byte := 0xBA#8
/-- `BITMAP_BYTES = 1024` (R60). -/
def bitmapBytes : Nat := 1024
/-- `CHUNK_LEN = 9` (R60). -/
def chunkLen : Nat := 9
/-- `BLOCK_LEN = 8` (R60). -/
def blockLen : Nat := 8
/-- `TYPE_SCREENSHOT = 1` (R60). -/
def typeScreenshot : Byte := 1#8
/-- `TYPE_DIFF = 2` (R60). -/
def typeDiff : Byte := 2#8
/-- The longest payload PKT_BUILD accepts (R162). -/
def maxPayload : Nat := 65530
/-- The polynomial (R62, R110). -/
def crcPoly : Word := 0x1021#16

/-! Assembled fields (00_scope.md §4; R43, R44). -/

/-- A 16-bit field from its bytes in stream order, least significant first. -/
def le16 (b0 b1 : Byte) : Word := b1 ++ b0

/-- A 16-bit field from its bytes in stream order, most significant first. -/
def be16 (b0 b1 : Byte) : Word := b0 ++ b1

/-- A 32-bit field from its bytes in stream order, least significant first. -/
def le32 (b0 b1 b2 b3 : Byte) : DWord := b3 ++ b2 ++ b1 ++ b0

/-- Bits 7 to 0 of a u16. -/
def lowByte (w : Word) : Byte := w.extractLsb' 0 8

/-- Bits 15 to 8 of a u16. -/
def highByte (w : Word) : Byte := w.extractLsb' 8 8

/-- `le16(v)`: the two bytes of a u16, least significant first. -/
def le16Bytes (w : Word) : List Byte := [lowByte w, highByte w]

/-- The two bytes of a u16, most significant first. -/
def be16Bytes (w : Word) : List Byte := [highByte w, lowByte w]

/-- The four bytes of a u32, least significant first. -/
def le32Bytes (w : DWord) : List Byte :=
  [w.extractLsb' 0 8, w.extractLsb' 8 8, w.extractLsb' 16 8, w.extractLsb' 24 8]

/-- `s[i]`; every use is at an index below `len(s)`. -/
def byteOf (s : List Byte) (i : Nat) : Byte := s.getD i 0

/-- `LE16(s, o)`. -/
def le16At (s : List Byte) (o : Nat) : Word := le16 (byteOf s o) (byteOf s (o + 1))

/-- `BE16(s, o)`. -/
def be16At (s : List Byte) (o : Nat) : Word := be16 (byteOf s o) (byteOf s (o + 1))

/-- `LE32(s, o)`. -/
def le32At (s : List Byte) (o : Nat) : DWord :=
  le32 (byteOf s o) (byteOf s (o + 1)) (byteOf s (o + 2)) (byteOf s (o + 3))

/-- `s[a:b)`. -/
def slice (s : List Byte) (a b : Nat) : List Byte := (s.drop a).take (b - a)

/-! Layouts. -/

/-- R64: the class of a frame, from type and size only. -/
def frameClass (type : Byte) (size : Nat) : FrameClass :=
  if type = typeScreenshot ∧ size = bitmapBytes then .screenshot
  else if type = typeDiff ∧ size % chunkLen = 0 then .diff
  else .unknown

/-- R63: `DISP_MAGIC ++ [type] ++ size_be ++ payload`. -/
def frameBytes (type : Byte) (payload : List Byte) : List Byte :=
  [dispMagic0, dispMagic1, type] ++ be16Bytes (BitVec.ofNat 16 payload.length) ++ payload

/-- R66: the block byte, bit 7 of which tells a stop marker, then the data bytes. -/
def chunkBytes (stop : BitVec 1) (block : BitVec 7) (data : List Byte) : List Byte := (stop ++ block : Byte) :: data

/-- R67: header, `le16(msgLen)`, the region as transmitted (message and CRC, so `msgLen` is two less than its length), and
the two bytes at the footer's place. -/
def packetBytes (region : List Byte) (foot0 foot1 : Byte) : List Byte :=
  [cmdHeader0, cmdHeader1] ++ le16Bytes (BitVec.ofNat 16 (region.length - 2)) ++ region ++ [foot0, foot1]

/-- R69: what follows the type field. -/
def tailBytes : MsgTail → List Byte
  | .short none => []
  | .short (some b) => [b]
  | .full plen body => le16Bytes plen ++ body

/-- R69: the type field, then the rest. -/
def messageBytes (type : Word) (tail : MsgTail) : List Byte := le16Bytes type ++ tailBytes tail

/-- The type of a SessionInit (R72). -/
def typeSessionInit : Word := 0x0514#16
/-- The type of a SessionInfo (R72). -/
def typeSessionInfo : Word := 0x0515#16
/-- The type of a ButtonEvent (R72). -/
def typeButtonEvent : Word := 0x0610#16
/-- The type of a ButtonAck (R72). -/
def typeButtonAck : Word := 0x0611#16

/-- R72: the four recognised types. -/
def recognisedType (t : Word) : Bool :=
  t == typeSessionInit || t == typeSessionInfo || t == typeButtonEvent || t == typeButtonAck

end Sys2Proof.Machine
end

