-- ==== Sys2Proof/Machine/State.lean ====
section
/-! DEFINITION. State: everything 10_state.md gives the block, its parameters, and the host's side of the interface (requests
not yet taken, replies given). Plain data. -/

namespace Sys2Proof.Machine

/-- A byte-addressed memory: (address, byte) pairs, addresses strictly rising, no entry equal to what an unlisted
address reads as (`unlistedByte`). -/
abbrev Memory := List Host.Cell

/-- The display events (R203). -/
inductive Event where
  /-- A Screenshot was applied; a copy of BITMAP (R140, R53). -/
  | fullFrameReceived (bitmap : List Byte)
  /-- A Diff was processed; a copy of BITMAP (R144, R53). -/
  | diffApplied (bitmap : List Byte)
  /-- Any other frame (R145). -/
  | unknownFrame (type : Byte) (size : Word)
  deriving DecidableEq, Repr

/-- The record of a decoded packet (R171). -/
structure Packet where
  type : Word
  plen : Option Word
  body : List Byte
  payload : List Byte
  crcRx : Word
  crcCalc : Word
  crcOk : Bool
  deriving DecidableEq, Repr

/-- The results of one PKT_FETCH (R170). -/
inductive FetchResult where
  | needMore
  | resync
  | malformedShort (msgLen : Word)
  | malformedCrc (crcRx crcCalc : Word)
  | packet (p : Packet)
  deriving DecidableEq, Repr

/-- The fields of a cleartext message that step 8 of PKT_FETCH extracts (R182, R183). -/
structure MessageFields where
  type : Word
  plen : Option Word
  body : List Byte
  payload : List Byte
  deriving DecidableEq, Repr

/-- A payload read by the layout of its message type (R73 to R76). -/
inductive PayloadView where
  | sessionInit (ts : DWord)
  | sessionInfo (ts : DWord) (rest : List Byte)
  | buttonEvent (ts : DWord) (seq : Word) (key action : Byte) (reserved : Word)
  | buttonAck (seq : Word) (status queueDepth : Byte)
  deriving DecidableEq, Repr

/-- What an operation hands to the host (R90, R201). -/
inductive Reply where
  /-- `Ok`, no result. -/
  | done
  /-- `Ok` with bytes: XOR_APPLY, DISP_READ, PKT_BUILD. -/
  | bytes (v : List Byte)
  /-- `Ok` with a u16: CRC16, CRC_READ. -/
  | word (v : Word)
  /-- `Ok` with a bit: DISP_PIXEL. -/
  | bit (v : Bool)
  /-- `Ok` with display events, in buffer order: DISP_INGEST, which a frame or a chunk run by itself is too. -/
  | events (es : List Event)
  /-- One fetch result: PKT_FETCH. -/
  | fetch (r : FetchResult)
  /-- Fetch results in buffer order: CMD_INGEST, which a packet run by itself is too. -/
  | fetches (rs : List FetchResult)
  /-- A message run by itself (log entry 6). -/
  | message (m : MessageFields) (view : Option PayloadView)
  /-- PKT_BUILD's refusal, with the payload length (R162). -/
  | lengthOverflow (p : Nat)
  /-- The ingests' refusal (R47). -/
  | capacityExceeded
  /-- DISP_PIXEL's refusal (R146). -/
  | outOfRange (x y : Byte)
  /-- The refusal of an unlisted selector (R207). -/
  | badSelector (sel : Byte)
  deriving DecidableEq, Repr

/-- No operation faults: no condition of the block raises a trap or stops it (R200; 93_implementation_defined.md §1). -/
inductive Fault
  deriving DecidableEq, Repr

/-- Where the model has no meaning to give. Each is safe: the model stops. -/
inductive Refusal where
  /-- Raised by exec's arm of an instruction that has no meaning yet. Safe. -/
  | notModelled (mnemonic : String)
  /-- Raised by a meaning given an Instr term that no encoding gives (WellFormed fails); step never meets one. Safe. -/
  | illFormed
  /-- Raised by step when a request's bytes are no instruction of its format (an unlisted selector is no such case:
  R207 answers it). Safe. -/
  | undecodable (e : DecodeError)
  deriving DecidableEq, Repr

/-- The state of the block. -/
structure State where
  /-- `CRC_REG` (R20). -/
  crcReg : Word
  /-- `BITMAP` (R22, R41). -/
  bitmap : Memory
  /-- `DISP_RX` (R23). -/
  dispRx : List Byte
  /-- `CMD_RX` (R24). -/
  cmdRx : List Byte
  /-- `XOR_KEY`, `CRC_ENFORCE`, `DISP_RX_CAP`, `CMD_RX_CAP` (R3, R4, R5, R21, R29): never written. -/
  params : Params
  /-- The model's own: requests of the host not yet taken, first first (log entry 2). -/
  inbox : List Request
  /-- The model's own: what the host was given so far, oldest first (log entry 3). -/
  replies : List Reply
  deriving DecidableEq, Repr

/-- R220 to R222: the reset state of a block with these parameters. -/
def State.resetWith (p : Params) : State :=
  { crcReg := 0x0000#16, bitmap := [], dispRx := [], cmdRx := [], params := p, inbox := [], replies := [] }

/-- The machine right after reset (R221), with the parameter values of Config. -/
def State.reset : State := State.resetWith Config.params

end Sys2Proof.Machine
end

