-- ==== Sys2Proof/Machine/Ops.lean ====
section
/-! DEFINITION. The named operations over memory, registers and buffers (00_scope.md §4; 20_memory.md R41, R47, R48).
There is no exception entry or return: every abnormal condition is an outcome of its operation (60_exceptions.md R200),
and `State.refuse` is the one operation that gives a refusal (R204). -/

namespace Sys2Proof.Machine

/-! Memory. -/

/-- What an unlisted address reads as: the reset content of BITMAP (R22, R220). -/
def unlistedByte : Byte := 0x00#8

/-- The canonical form from address `lo` on: addresses rising, below the end of BITMAP, no entry that reads as unlisted. -/
def Memory.wfFrom : Nat → Memory → Bool
  | _, [] => true
  | lo, (k, b) :: t => decide (lo ≤ k) && decide (k < bitmapBytes) && decide (b ≠ unlistedByte) && Memory.wfFrom (k + 1) t

/-- The canonical form of BITMAP. -/
def Memory.wf (m : Memory) : Bool := Memory.wfFrom 0 m

/-- `BITMAP[a]`. -/
def Memory.byteAt : Memory → Nat → Byte
  | [], _ => unlistedByte
  | (k, b) :: t, a => if k = a then b else Memory.byteAt t a

/-- The entries of bytes `v` placed from address `a` on. -/
def Memory.cells : Nat → List Byte → Memory
  | _, [] => []
  | a, b :: t => if b = unlistedByte then Memory.cells (a + 1) t else (a, b) :: Memory.cells (a + 1) t

/-- `MemWrite(BITMAP, a, len(v), v)` (R41): replaces `BITMAP[a:a+len(v))` by `v`, and no other byte. -/
def Memory.write (m : Memory) (a : Nat) (v : List Byte) : Memory :=
  m.filter (fun c => c.1 < a) ++ Memory.cells a v ++ m.filter (fun c => a + v.length ≤ c.1)

/-- The `n` bytes from address `a` on, of entries that all lie at or above `a`. -/
def Memory.readFrom : Nat → Nat → Memory → List Byte
  | 0, _, _ => []
  | n + 1, a, [] => unlistedByte :: Memory.readFrom n (a + 1) []
  | n + 1, a, (k, b) :: t =>
    if k = a then b :: Memory.readFrom n (a + 1) t else unlistedByte :: Memory.readFrom n (a + 1) ((k, b) :: t)

/-- `MemRead(BITMAP, a, n)` (R41). -/
def Memory.read (m : Memory) (a n : Nat) : List Byte :=
  Memory.readFrom n a (m.filter (fun c => a ≤ c.1))

/-- A copy of BITMAP: its 1024 bytes (R53, R147). -/
def Memory.copy (m : Memory) : List Byte := m.read 0 bitmapBytes

/-! Receive buffers and byte sequences. -/


/-- `keep_last(k)` (R48). -/
def keepLast (q : List Byte) (k : Nat) : List Byte := q.drop (q.length - k)

/-- `find2(s, b0, b1)` (00_scope.md §4): the least index at which the two bytes stand next to each other. -/
def find2 (b0 b1 : Byte) : List Byte → Option Nat
  | [] => none
  | [_] => none
  | x :: y :: t => if x = b0 ∧ y = b1 then some 0 else (find2 b0 b1 (y :: t)).map (· + 1)

/-! Updates of State, one per field the block or its interface writes. -/

/-- `CRC_REG <- v`. -/
def State.withCrcReg (s : State) (v : Word) : State := { s with crcReg := v }
/-- `BITMAP <- m`. -/
def State.withBitmap (s : State) (m : Memory) : State := { s with bitmap := m }
/-- `DISP_RX <- q`. -/
def State.withDispRx (s : State) (q : List Byte) : State := { s with dispRx := q }
/-- `CMD_RX <- q`. -/
def State.withCmdRx (s : State) (q : List Byte) : State := { s with cmdRx := q }
/-- The host's requests become `q`. -/
def State.withInbox (s : State) (q : List Request) : State := { s with inbox := q }
/-- The operation ends and hands `r` to the host, after all earlier replies (R50, R92). -/
def State.reply (s : State) (r : Reply) : State := { s with replies := s.replies ++ [r] }

/-- The outcome of an operation that ends with reply `r`. -/
abbrev Result := Host.Outcome State Fault Refusal

/-- A refusal of R204: the reply, and every piece of block state as it was. -/
def State.refuse (s : State) (r : Reply) : Result := .next (s.reply r)

end Sys2Proof.Machine
end

