-- ==== Sys2Proof/Machine/Flags.lean ====
section
/-! DEFINITION. The block has no status flags (10_state.md R30); the conditions its operations compute are fields of their
results. This file holds them: `crc_ok` (R180) and the codes of outcomes and events (R201, R203), which are labels only. -/

namespace Sys2Proof.Machine

/-- R180: `crc_ok = (crc_calc = crc_rx)`. -/
def crcOk (crcRx crcCalc : Word) : Bool := crcCalc == crcRx

/-- The codes of fetch results (R201); a `Packet` is `Ok`. -/
def FetchResult.code : FetchResult → Byte
  | .packet _ => 0x00#8
  | .needMore => 0x01#8
  | .resync => 0x02#8
  | .malformedShort _ => 0x03#8
  | .malformedCrc _ _ => 0x04#8

/-- The outcome codes (R201). -/
def Reply.code : Reply → Byte
  | .done => 0x00#8
  | .bytes _ => 0x00#8
  | .word _ => 0x00#8
  | .bit _ => 0x00#8
  | .events _ => 0x00#8
  | .fetch r => r.code
  | .fetches _ => 0x00#8
  | .message _ _ => 0x00#8
  | .lengthOverflow _ => 0x05#8
  | .capacityExceeded => 0x06#8
  | .outOfRange _ _ => 0x07#8
  | .badSelector _ => 0x08#8

/-- The event codes (R203). -/
def Event.code : Event → Byte
  | .fullFrameReceived _ => 0x10#8
  | .diffApplied _ => 0x11#8
  | .unknownFrame _ _ => 0x12#8

end Sys2Proof.Machine
end

