-- ==== Sys2Proof/Machine/Control.lean ====
section
/-! DEFINITION. RESET (70_reset_and_hazards.md R220): the one operation that acts on the whole block. -/

namespace Sys2Proof.Machine

/-- RESET (R220): the four elements; parameters are not changed, and what the host queued or was given is the host's. -/
def execReset (s : State) : Result :=
  .next (((((s.withCrcReg 0x0000#16).withBitmap []).withDispRx []).withCmdRx []).reply .done)

end Sys2Proof.Machine
end

