-- ==== Sys2Proof/Machine/Display.lean ====
section
/-! DEFINITION. The display-frame parser and the bitmap (42_display_frame.md): DISP_INGEST, DISP_PIXEL, DISP_READ. -/

namespace Sys2Proof.Machine

/-- R141 to R143: the first `n` chunks of a payload, in order, up to the first stop marker. -/
def applyChunks : Nat → List Byte → Memory → Memory
  | 0, _, m => m
  | n + 1, payload, m =>
    let block := (byteOf payload 0).toNat
    if block < 128 then applyChunks n (payload.drop chunkLen) (m.write (blockLen * block) (slice payload 1 chunkLen))
    else m

/-- What handling a frame gives: BITMAP after it and the event it emits. -/
structure Handled where
  bitmap : Memory
  event : Event
  deriving DecidableEq, Repr

/-- R138 to R145: step 5, the dispatch on type and size. -/
def handleFrame (type : Byte) (payload : List Byte) (m : Memory) : Handled :=
  match frameClass type payload.length with
  | .screenshot =>
    let m' := m.write 0 payload
    { bitmap := m', event := .fullFrameReceived m'.copy }
  | .diff =>
    let m' := applyChunks (payload.length / chunkLen) payload m
    { bitmap := m', event := .diffApplied m'.copy }
  | .unknown => { bitmap := m, event := .unknownFrame type (BitVec.ofNat 16 payload.length) }

/-- One pass of the extraction loop: it returns, leaving a buffer, or takes a whole frame off the buffer. -/
inductive DispPass where
  | stop (rx : List Byte)
  | frame (type : Byte) (payload rest : List Byte)
  deriving DecidableEq, Repr

/-- R136, R137: steps 3 and 4, on a buffer that begins with a header. -/
def dispExtract (rx : List Byte) : DispPass :=
  if rx.length < 5 then .stop rx
  else
    let size := (be16At rx 3).toNat
    if rx.length < 5 + size then .stop rx
    else .frame (byteOf rx 2) (slice rx 5 (5 + size)) (rx.drop (5 + size))

/-- R132 to R137: steps 1 to 4. -/
def dispPass (rx : List Byte) : DispPass :=
  if rx.length < 5 then .stop rx
  else
    match find2 dispMagic0 dispMagic1 rx with
    | none => .stop (keepLast rx 1)
    | some k => dispExtract (rx.drop k)

/-- What the extraction loop leaves and produces. -/
structure Drained where
  rx : List Byte
  bitmap : Memory
  events : List Event
  deriving DecidableEq, Repr

/-- R130, R131: the extraction loop, at most `fuel` passes. -/
def dispLoop : Nat → List Byte → Memory → Drained
  | 0, rx, m => { rx := rx, bitmap := m, events := [] }
  | fuel + 1, rx, m =>
    match dispPass rx with
    | .stop rx' => { rx := rx', bitmap := m, events := [] }
    | .frame type payload rest =>
      let h := handleFrame type payload m
      let d := dispLoop fuel rest h.bitmap
      { d with events := h.event :: d.events }

/-- The whole loop: each pass that does not return takes at least 5 bytes (R150), so one pass more than there are bytes
is never used up (log entry 13). -/
def dispDrain (rx : List Byte) (m : Memory) : Drained := dispLoop (rx.length + 1) rx m

/-- DISP_INGEST (R130). -/
def execDispIngest (data : List Byte) (s : State) : Result :=
  if s.params.dispRxCap < s.dispRx.length + data.length then s.refuse .capacityExceeded
  else
    let d := dispDrain (s.dispRx ++ data) s.bitmap
    .next (((s.withDispRx d.rx).withBitmap d.bitmap).reply (.events d.events))

/-- The pixel index `n = y*128 + x` (R42, R146). -/
def pixelIndex (x y : Byte) : Nat := y.toNat * 128 + x.toNat

/-- R42: pixel `(x, y)` is on iff bit `n mod 8` of byte `BITMAP[n div 8]` is 1. -/
def pixelOn (m : Memory) (x y : Byte) : Bool := (m.byteAt (pixelIndex x y / 8)).getLsbD (pixelIndex x y % 8)

/-- DISP_PIXEL (R146). -/
def execDispPixel (x y : Byte) (s : State) : Result :=
  if 128 ≤ x.toNat ∨ 64 ≤ y.toNat then s.refuse (.outOfRange x y)
  else .next (s.reply (.bit (pixelOn s.bitmap x y)))

/-- DISP_READ (R147). -/
def execDispRead (s : State) : Result := .next (s.reply (.bytes s.bitmap.copy))

end Sys2Proof.Machine
end

