-- ==== Sys2Proof/Machine/Codec.lean ====
section
/-! DEFINITION. The XOR obfuscation codec (40_obfuscation.md): XOR_APPLY. -/

namespace Sys2Proof.Machine

/-- `XOR_KEY[i mod 16]`. -/
def keyByte (key : Vector Byte 16) (i : Nat) : Byte := key[i % 16]

/-- The bytes of `data`, the first of which stands at index `i` of the operand, each combined with its key byte. -/
def xorFrom (key : Vector Byte 16) : Nat → List Byte → List Byte
  | _, [] => []
  | i, b :: t => (b ^^^ keyByte key i) :: xorFrom key (i + 1) t

/-- R100: the codec; the key index is the index within the operand (R102). -/
def xorApply (key : Vector Byte 16) (data : List Byte) : List Byte := xorFrom key 0 data

/-- XOR_APPLY (R100). -/
def execXorApply (data : List Byte) (s : State) : Result :=
  .next (s.reply (.bytes (xorApply s.params.xorKey data)))

end Sys2Proof.Machine
end

