-- ==== Sys2Proof/Machine/Crc.lean ====
section
/-! DEFINITION. The CRC-16/XMODEM engine (41_crc16.md): the algorithm, CRC16, and the register view CRC_INIT, CRC_BYTE,
CRC_READ. -/

namespace Sys2Proof.Machine

/-- R111: the bit step; bit 15 is tested before the shift. -/
def crcStep (c : Word) : Word := if c.getLsbD 15 then (c <<< 1) ^^^ crcPoly else c <<< 1

/-- `n` bit steps. -/
def crcSteps : Nat → Word → Word
  | 0, c => c
  | n + 1, c => crcSteps n (crcStep c)

/-- R111: the byte update; the byte goes into bits 15 to 8, then 8 bit steps. -/
def crcUpdate (c : Word) (b : Byte) : Word := crcSteps 8 (c ^^^ (b.zeroExtend 16 <<< 8))

/-- R112: the one-shot CRC. -/
def crc16 (data : List Byte) : Word := data.foldl crcUpdate 0x0000#16

/-- CRC_INIT (R114). -/
def execCrcInit (s : State) : Result := .next ((s.withCrcReg 0x0000#16).reply .done)

/-- CRC_BYTE (R115). -/
def execCrcByte (b : Byte) (s : State) : Result := .next ((s.withCrcReg (crcUpdate s.crcReg b)).reply .done)

/-- CRC_READ (R116). -/
def execCrcRead (s : State) : Result := .next (s.reply (.word s.crcReg))

/-- CRC16 (R112): reads and writes no block state. -/
def execCrc16 (data : List Byte) (s : State) : Result := .next (s.reply (.word (crc16 data)))

end Sys2Proof.Machine
end

