-- ==== Sys2Proof/Machine/Framer.lean ====
section
/-! DEFINITION. The command-packet framer (43_command_framer.md): PKT_BUILD, PKT_FETCH, CMD_INGEST. -/

namespace Sys2Proof.Machine

/-! Encoder. -/

/-- R161: the padded message. -/
def paddedMessage (type : Word) (payload : List Byte) : List Byte :=
  let m := le16Bytes type ++ le16Bytes (BitVec.ofNat 16 payload.length) ++ payload
  if m.length % 2 = 1 then m ++ [0x00#8] else m

/-- R160, R163, R164: the packet of a cleartext message. -/
def buildPacket (key : Vector Byte 16) (message : List Byte) : List Byte :=
  packetBytes (xorApply key (message ++ le16Bytes (crc16 message))) cmdFooter0 cmdFooter1

/-- PKT_BUILD (R160). -/
def execPktBuild (type : Word) (payload : List Byte) (s : State) : Result :=
  if maxPayload < payload.length then s.refuse (.lengthOverflow payload.length)
  else .next (s.reply (.bytes (buildPacket s.params.xorKey (paddedMessage type payload))))

/-! Decoder. -/

/-- R182, R183: step 8, the fields of a cleartext message of at least 2 bytes. -/
def messageFields (m : List Byte) : MessageFields :=
  if 4 ≤ m.length then
    let plen := le16At m 2
    let body := m.drop 4
    { type := le16At m 0, plen := some plen, body := body, payload := body.take (min plen.toNat body.length) }
  else { type := le16At m 0, plen := none, body := [], payload := [] }

/-- R171, R180 to R184: the result for a de-obfuscated message and its received CRC. -/
def judgeMessage (enforce : Bool) (m : List Byte) (crcRx : Word) : FetchResult :=
  let crcCalc := crc16 m
  if enforce ∧ crcOk crcRx crcCalc = false then .malformedCrc crcRx crcCalc
  else
    let f := messageFields m
    .packet { type := f.type, plen := f.plen, body := f.body, payload := f.payload,
              crcRx := crcRx, crcCalc := crcCalc, crcOk := crcOk crcRx crcCalc }

/-- R178 to R184: steps 6 to 8, on the obfuscated region of a packet with this msgLen. -/
def openRegion (p : Params) (msgLen : Word) (obfuscated : List Byte) : FetchResult :=
  let region := xorApply p.xorKey obfuscated
  if msgLen.toNat < 2 then .malformedShort msgLen
  else judgeMessage p.crcEnforce (region.take msgLen.toNat) (le16At region msgLen.toNat)

/-- What one decode attempt gives: its result and CMD_RX after it. -/
structure Fetch where
  result : FetchResult
  rx : List Byte
  deriving DecidableEq, Repr

/-- R176 to R184: steps 4 to 8, on a buffer that begins with a header. -/
def pktExtract (p : Params) (rx : List Byte) : Fetch :=
  if rx.length < 8 then { result := .needMore, rx := rx }
  else
    let msgLen := le16At rx 2
    let packetEnd := 6 + msgLen.toNat
    if rx.length < packetEnd + 2 then { result := .needMore, rx := rx }
    else if byteOf rx packetEnd ≠ cmdFooter0 ∨ byteOf rx (packetEnd + 1) ≠ cmdFooter1 then
      { result := .resync, rx := rx.drop 2 }
    else { result := openRegion p msgLen (slice rx 4 packetEnd), rx := rx.drop (packetEnd + 2) }

/-- R174: what stays buffered when there is no header. -/
def partialHeader (rx : List Byte) : List Byte := if rx.getLast? = some cmdHeader0 then keepLast rx 1 else []

/-- R172: one decode attempt, steps 1 to 8. -/
def fetchPacket (p : Params) (rx : List Byte) : Fetch :=
  if rx.length < 8 then { result := .needMore, rx := rx }
  else
    match find2 cmdHeader0 cmdHeader1 rx with
    | none => { result := .needMore, rx := partialHeader rx }
    | some k => pktExtract p (rx.drop k)

/-- One PKT_FETCH on the block. -/
def State.fetchOnce (s : State) : State :=
  let f := fetchPacket s.params s.cmdRx
  (s.withCmdRx f.rx).reply (.fetch f.result)

/-- PKT_FETCH (R172). -/
def execPktFetch (s : State) : Result := .next s.fetchOnce

/-- What CMD_INGEST's loop leaves and produces. -/
structure Fetches where
  rx : List Byte
  results : List FetchResult
  deriving DecidableEq, Repr

/-- R186: PKT_FETCH until `NeedMore`, at most `fuel` times. -/
def cmdLoop (p : Params) : Nat → List Byte → Fetches
  | 0, rx => { rx := rx, results := [] }
  | fuel + 1, rx =>
    let f := fetchPacket p rx
    if f.result = .needMore then { rx := f.rx, results := [.needMore] }
    else
      let d := cmdLoop p fuel f.rx
      { d with results := f.result :: d.results }

/-- The whole loop: each result but `NeedMore` takes at least 2 bytes (R187), so one attempt more than there are bytes is
never used up (log entry 13). -/
def cmdDrain (p : Params) (rx : List Byte) : Fetches := cmdLoop p (rx.length + 1) rx

/-- CMD_INGEST (R186). -/
def execCmdIngest (data : List Byte) (s : State) : Result :=
  if s.params.cmdRxCap < s.cmdRx.length + data.length then s.refuse .capacityExceeded
  else
    let d := cmdDrain s.params (s.cmdRx ++ data)
    .next ((s.withCmdRx d.rx).reply (.fetches d.results))

end Sys2Proof.Machine
end

