-- ==== Sys2Proof/WellFormed.lean ====
section
/-! DEFINITION. Which terms of Instr some encoding of the spec gives: lengths that fit their fields (R91, R63, R67, R69),
frame classes (R64), and a MSG_OTHER type that no other row has (R72, R77). -/

namespace Sys2Proof

open Machine

/-- The length of a byte-sequence operand fits its 4-byte field (R91). -/
def callLengthFits (data : List Byte) : Bool := decide (data.length < 4294967296)

/-- A message fits the 16-bit msgLen (R67). -/
def tailFits : MsgTail → Bool
  | .short _ => true
  | .full _ body => decide (body.length ≤ 65531)

/-- A frame of this type and payload is of this class (R64) and its size fits its field (R63). -/
def frameFits (c : FrameClass) (type : Byte) (payload : List Byte) : Bool :=
  decide (frameClass type payload.length = c) && decide (payload.length < 65536)

/-- A region holds at least the CRC, and msgLen fits its field (R67). -/
def regionFits (region : List Byte) : Bool := decide (2 ≤ region.length) && decide (region.length ≤ 65537)

/-- A diff chunk has 8 data bytes (R66). -/
def chunkFits (data : List Byte) : Bool := decide (data.length = blockLen)

/-- A stop marker has the 8 data bytes of its chunk (R66). -/
def stopFits (unused : List Byte) : Bool := decide (blockLen ≤ unused.length)

def Instr.wellFormed : Instr → Bool
  | .xorApply data => callLengthFits data
  | .crcInit => true
  | .crcByte _ => true
  | .crcRead => true
  | .crc16 data => callLengthFits data
  | .dispIngest data => callLengthFits data
  | .dispPixel _ _ => true
  | .dispRead => true
  | .pktBuild _ payload => callLengthFits payload
  | .pktFetch => true
  | .cmdIngest data => callLengthFits data
  | .reset => true
  | .dispScreenshot payload => frameFits .screenshot typeScreenshot payload
  | .dispDiff payload => frameFits .diff typeDiff payload
  | .dispUnknown type payload => frameFits .unknown type payload
  | .diffChunk _ data => chunkFits data
  | .diffStop _ unused => stopFits unused
  | .cmdPacket region _ _ => regionFits region
  | .msgSessionInit tail => tailFits tail
  | .msgSessionInfo tail => tailFits tail
  | .msgButtonEvent tail => tailFits tail
  | .msgButtonAck tail => tailFits tail
  | .msgOther type tail => !recognisedType type && tailFits tail
  | .keepalive => true

/-- Some encoding of the spec gives this term. -/
abbrev WellFormed (i : Instr) : Prop := i.wellFormed = true

end Sys2Proof
end

