-- ==== Sys2Proof/Machine/Wire.lean ====
section
/-! DEFINITION. The wire rows of the opcode table run by themselves (log entries 4 to 7). State changes only when the host
invokes an operation of R90 (R1), so a frame, a chunk or a packet is the operation whose parser reads its bytes; a message
changes no state of the block. Also the payload layouts of R73 to R76. -/

namespace Sys2Proof.Machine

/-! Payload layouts. -/

/-- R73: 4 bytes, a timestamp. -/
def viewSessionInit (p : List Byte) : Option PayloadView :=
  if p.length = 4 then some (.sessionInit (le32At p 0)) else none

/-- R74: at least 4 bytes, a timestamp; the bytes after it are not described. -/
def viewSessionInfo (p : List Byte) : Option PayloadView :=
  if 4 ≤ p.length then some (.sessionInfo (le32At p 0) (p.drop 4)) else none

/-- R75: 10 bytes: timestamp, sequence number, key, action, reserved. -/
def viewButtonEvent (p : List Byte) : Option PayloadView :=
  if p.length = 10 then some (.buttonEvent (le32At p 0) (le16At p 4) (byteOf p 6) (byteOf p 7) (le16At p 8)) else none

/-- R76: 4 bytes: sequence number, status, queue depth. -/
def viewButtonAck (p : List Byte) : Option PayloadView :=
  if p.length = 4 then some (.buttonAck (le16At p 0) (byteOf p 2) (byteOf p 3)) else none

/-- R73 to R76, the other way: the payload bytes of a view. -/
def payloadOf : PayloadView → List Byte
  | .sessionInit ts => le32Bytes ts
  | .sessionInfo ts rest => le32Bytes ts ++ rest
  | .buttonEvent ts seq key action reserved => le32Bytes ts ++ le16Bytes seq ++ [key, action] ++ le16Bytes reserved
  | .buttonAck seq status queueDepth => le16Bytes seq ++ [status, queueDepth]

/-- R72: the message type of a view. -/
def viewType : PayloadView → Word
  | .sessionInit _ => typeSessionInit
  | .sessionInfo _ _ => typeSessionInfo
  | .buttonEvent _ _ _ _ _ => typeButtonEvent
  | .buttonAck _ _ _ => typeButtonAck

/-- R72: the recognised types that go from host to radio; the two others come from the radio. -/
def hostToRadio (t : Word) : Bool := t == typeSessionInit || t == typeButtonEvent

/-- R75: the action byte 0 is a press, 1 a release; other values have no meaning given (I6). -/
def actionName (action : Byte) : Option String :=
  if action = 0#8 then some "press" else if action = 1#8 then some "release" else none

/-- R76: the status byte; values from 4 on have no meaning in this block (R79, I5). -/
def statusName (status : Byte) : Option String :=
  if status = 0#8 then some "accepted"
  else if status = 1#8 then some "busy"
  else if status = 2#8 then some "invalid"
  else if status = 3#8 then some "stale"
  else none

/-! Display frames and chunks. -/

/-- A term some encoding gives has its effect; any other is refused. -/
def whenFormed (ok : Bool) (r : Result) : Result := if ok then r else .refused .illFormed

/-- DISP_SCREENSHOT (R140): DISP_INGEST of the frame's bytes. -/
def execDispScreenshot (payload : List Byte) (s : State) : Result :=
  whenFormed (frameFits .screenshot typeScreenshot payload) (execDispIngest (frameBytes typeScreenshot payload) s)

/-- DISP_DIFF (R141 to R144): DISP_INGEST of the frame's bytes. -/
def execDispDiff (payload : List Byte) (s : State) : Result :=
  whenFormed (frameFits .diff typeDiff payload) (execDispIngest (frameBytes typeDiff payload) s)

/-- DISP_UNKNOWN (R145): DISP_INGEST of the frame's bytes. -/
def execDispUnknown (type : Byte) (payload : List Byte) (s : State) : Result :=
  whenFormed (frameFits .unknown type payload) (execDispIngest (frameBytes type payload) s)

/-- DIFF_CHUNK (R143): a chunk reaches BITMAP inside a Diff frame only, so DISP_INGEST of the Diff of this one chunk. -/
def execDiffChunk (block : BitVec 7) (data : List Byte) (s : State) : Result :=
  whenFormed (chunkFits data) (execDispIngest (frameBytes typeDiff (chunkBytes 0#1 block data)) s)

/-- DIFF_STOP (R142): DISP_INGEST of the Diff of this one chunk; the chunks after it are not used. -/
def execDiffStop (block : BitVec 7) (unused : List Byte) (s : State) : Result :=
  whenFormed (stopFits unused) (execDispIngest (frameBytes typeDiff (chunkBytes 1#1 block (unused.take blockLen))) s)

/-! Command packets. -/

/-- CMD_PACKET (R172, R79): CMD_INGEST of the packet's bytes. -/
def execCmdPacket (region : List Byte) (foot0 foot1 : Byte) (s : State) : Result :=
  whenFormed (regionFits region) (execCmdIngest (packetBytes region foot0 foot1) s)

/-! Messages. -/

/-- R77, R182 to R184: a cleartext message is handed over, its fields extracted and nothing acted on; `view` reads its
payload by the layout of its type. -/
def State.takeMessage (s : State) (type : Word) (tail : MsgTail) (view : List Byte → Option PayloadView) : State :=
  let f := messageFields (messageBytes type tail)
  s.reply (.message f (view f.payload))

/-- MSG_SESSION_INIT (R73). -/
def execMsgSessionInit (tail : MsgTail) (s : State) : Result :=
  .next (s.takeMessage typeSessionInit tail viewSessionInit)

/-- MSG_SESSION_INFO (R74). -/
def execMsgSessionInfo (tail : MsgTail) (s : State) : Result :=
  .next (s.takeMessage typeSessionInfo tail viewSessionInfo)

/-- MSG_BUTTON_EVENT (R75). -/
def execMsgButtonEvent (tail : MsgTail) (s : State) : Result :=
  .next (s.takeMessage typeButtonEvent tail viewButtonEvent)

/-- MSG_BUTTON_ACK (R76). -/
def execMsgButtonAck (tail : MsgTail) (s : State) : Result :=
  .next (s.takeMessage typeButtonAck tail viewButtonAck)

/-- MSG_OTHER (R77): any other type, payload not interpreted. -/
def execMsgOther (type : Word) (tail : MsgTail) (s : State) : Result :=
  .next (s.takeMessage type tail (fun _ => none))

/-! Outside. -/

/-- KEEPALIVE (R89): the block neither produces the pattern nor gives it any meaning, and no response is expected, so
nothing changes (log entry 7). -/
def execKeepalive (s : State) : Result := .next s

end Sys2Proof.Machine
end

