-- ==== Sys2Proof/Machine/Dispatch.lean ====
section
/-! DEFINITION. One arm per constructor of Instr. -/

namespace Sys2Proof.Machine

def exec (i : Instr) (s : State) : Host.Outcome State Fault Refusal :=
  match i with
  | .xorApply data => Sys2Proof.Machine.execXorApply data s
  | .crcInit => Sys2Proof.Machine.execCrcInit s
  | .crcByte b => Sys2Proof.Machine.execCrcByte b s
  | .crcRead => Sys2Proof.Machine.execCrcRead s
  | .crc16 data => Sys2Proof.Machine.execCrc16 data s
  | .dispIngest data => Sys2Proof.Machine.execDispIngest data s
  | .dispPixel x y => Sys2Proof.Machine.execDispPixel x y s
  | .dispRead => Sys2Proof.Machine.execDispRead s
  | .pktBuild type payload => Sys2Proof.Machine.execPktBuild type payload s
  | .pktFetch => Sys2Proof.Machine.execPktFetch s
  | .cmdIngest data => Sys2Proof.Machine.execCmdIngest data s
  | .reset => Sys2Proof.Machine.execReset s
  | .dispScreenshot payload => Sys2Proof.Machine.execDispScreenshot payload s
  | .dispDiff payload => Sys2Proof.Machine.execDispDiff payload s
  | .dispUnknown type payload => Sys2Proof.Machine.execDispUnknown type payload s
  | .diffChunk block data => Sys2Proof.Machine.execDiffChunk block data s
  | .diffStop block unused => Sys2Proof.Machine.execDiffStop block unused s
  | .cmdPacket region foot0 foot1 => Sys2Proof.Machine.execCmdPacket region foot0 foot1 s
  | .msgSessionInit tail => Sys2Proof.Machine.execMsgSessionInit tail s
  | .msgSessionInfo tail => Sys2Proof.Machine.execMsgSessionInfo tail s
  | .msgButtonEvent tail => Sys2Proof.Machine.execMsgButtonEvent tail s
  | .msgButtonAck tail => Sys2Proof.Machine.execMsgButtonAck tail s
  | .msgOther type tail => Sys2Proof.Machine.execMsgOther type tail s
  | .keepalive => Sys2Proof.Machine.execKeepalive s

end Sys2Proof.Machine
end

