-- ==== Sys2Proof/Decode.lean ====
section
/-! DEFINITION. The decoder, total on any bytes under each format of spec/opcode_table.json, and after it the encoder; then
what the host reads: table words (decodeTableWord) and the request that stands for one (tableRequest). -/

namespace Sys2Proof

open Machine

/-- What a decoder answers: the instruction and the bytes after it, or why there is none. -/
abbrev Decoded := Except DecodeError (Instr × List Byte)

/-- R91: a byte-sequence operand, its length in 4 bytes little-endian, then the bytes. -/
def decodeBytes : List Byte → Except DecodeError (List Byte × List Byte)
  | l0 :: l1 :: l2 :: l3 :: t =>
    let n := (le32 l0 l1 l2 l3).toNat
    if n ≤ t.length then .ok (t.take n, t.drop n) else .error (.truncated .call)
  | _ => .error (.truncated .call)

/-- An operation whose one operand is a byte sequence. -/
def decodeBytesCall (mk : List Byte → Instr) (bs : List Byte) : Decoded :=
  match decodeBytes bs with
  | .ok (data, rest) => .ok (mk data, rest)
  | .error e => .error e

/-- R91: the type as `le16`, then the payload. -/
def decodeBuildCall : List Byte → Decoded
  | t0 :: t1 :: bs => decodeBytesCall (.pktBuild (le16 t0 t1)) bs
  | _ => .error (.truncated .call)

/-- R90, R91: the selector byte and the operands; a selector that R90 does not list is refused (R207). -/
def decodeCall : List Byte → Decoded
  | [] => .error (.truncated .call)
  | sel :: bs =>
    match sel.toNat with
    | 0x01 => decodeBytesCall .xorApply bs
    | 0x02 => .ok (.crcInit, bs)
    | 0x03 =>
      match bs with
      | b :: rest => .ok (.crcByte b, rest)
      | [] => .error (.truncated .call)
    | 0x04 => .ok (.crcRead, bs)
    | 0x05 => decodeBytesCall .crc16 bs
    | 0x10 => decodeBytesCall .dispIngest bs
    | 0x11 =>
      match bs with
      | x :: y :: rest => .ok (.dispPixel x y, rest)
      | _ => .error (.truncated .call)
    | 0x12 => .ok (.dispRead, bs)
    | 0x20 => decodeBuildCall bs
    | 0x21 => .ok (.pktFetch, bs)
    | 0x22 => decodeBytesCall .cmdIngest bs
    | 0x30 => .ok (.reset, bs)
    | _ => .error (.badSelector sel)

/-- R64: the row of a whole frame. -/
def frameInstr (type : Byte) (payload : List Byte) : Instr :=
  match frameClass type payload.length with
  | .screenshot => .dispScreenshot payload
  | .diff => .dispDiff payload
  | .unknown => .dispUnknown type payload

/-- R63: magic, type, big-endian size, payload. -/
def decodeFrame : List Byte → Decoded
  | m0 :: m1 :: type :: s0 :: s1 :: t =>
    if m0 = dispMagic0 ∧ m1 = dispMagic1 then
      let size := (be16 s0 s1).toNat
      if size ≤ t.length then .ok (frameInstr type (t.take size), t.drop size)
      else .error (.truncated .displayFrame)
    else .error (.badMagic .displayFrame)
  | _ => .error (.truncated .displayFrame)

/-- R66: a chunk takes 9 bytes; a stop marker leaves the whole rest of the payload unused. -/
def decodeChunk : List Byte → Decoded
  | [] => .error (.truncated .diffChunk)
  | block :: t =>
    if t.length < blockLen then .error (.truncated .diffChunk)
    else if block.toNat < 128 then .ok (.diffChunk (block.extractLsb' 0 7) (t.take blockLen), t.drop blockLen)
    else .ok (.diffStop (block.extractLsb' 0 7) t, [])

/-- R67: header, msgLen, region of `msgLen + 2` bytes, two bytes at the footer's place. -/
def decodePacket : List Byte → Decoded
  | h0 :: h1 :: l0 :: l1 :: t =>
    if h0 = cmdHeader0 ∧ h1 = cmdHeader1 then
      let n := (le16 l0 l1).toNat + 2
      match t.drop n with
      | f0 :: f1 :: rest => .ok (.cmdPacket (t.take n) f0 f1, rest)
      | _ => .error (.truncated .commandPacket)
    else .error (.badMagic .commandPacket)
  | _ => .error (.truncated .commandPacket)

/-- R69, R182: what follows the type field. -/
def decodeTail : List Byte → MsgTail
  | [] => .short none
  | [b] => .short (some b)
  | p0 :: p1 :: body => .full (le16 p0 p1) body

/-- R72: the row of a message of this type. -/
def messageInstr (type : Word) (tail : MsgTail) : Instr :=
  if type = typeSessionInit then .msgSessionInit tail
  else if type = typeSessionInfo then .msgSessionInfo tail
  else if type = typeButtonEvent then .msgButtonEvent tail
  else if type = typeButtonAck then .msgButtonAck tail
  else .msgOther type tail

/-- R69: a message is all the bytes it is given, as msgLen bounds it in its packet. -/
def decodeMessage : List Byte → Decoded
  | t0 :: t1 :: t => .ok (messageInstr (le16 t0 t1) (decodeTail t), [])
  | _ => .error (.truncated .message)

/-- R89: the four keepalive bytes. -/
def decodeRaw : List Byte → Decoded
  | b0 :: b1 :: b2 :: b3 :: rest =>
    if b0 = 0x55#8 ∧ b1 = 0xAA#8 ∧ b2 = 0x00#8 ∧ b3 = 0x00#8 then .ok (.keepalive, rest)
    else .error (.badMagic .raw)
  | _ => .error (.truncated .raw)

/-- The decoder: the first instruction of the bytes under the format. -/
def decode (f : Format) (bs : List Byte) : Decoded :=
  match f with
  | .call => decodeCall bs
  | .displayFrame => decodeFrame bs
  | .diffChunk => decodeChunk bs
  | .commandPacket => decodePacket bs
  | .message => decodeMessage bs
  | .raw => decodeRaw bs

/-! The encoder. -/

/-- R91: a byte-sequence operand. -/
def encodeBytes (data : List Byte) : List Byte := le32Bytes (BitVec.ofNat 32 data.length) ++ data

/-- The bytes of an instruction, under its format. -/
def encode : Instr → List Byte
  | .xorApply data => 0x01#8 :: encodeBytes data
  | .crcInit => [0x02#8]
  | .crcByte b => [0x03#8, b]
  | .crcRead => [0x04#8]
  | .crc16 data => 0x05#8 :: encodeBytes data
  | .dispIngest data => 0x10#8 :: encodeBytes data
  | .dispPixel x y => [0x11#8, x, y]
  | .dispRead => [0x12#8]
  | .pktBuild type payload => 0x20#8 :: le16Bytes type ++ encodeBytes payload
  | .pktFetch => [0x21#8]
  | .cmdIngest data => 0x22#8 :: encodeBytes data
  | .reset => [0x30#8]
  | .dispScreenshot payload => frameBytes typeScreenshot payload
  | .dispDiff payload => frameBytes typeDiff payload
  | .dispUnknown type payload => frameBytes type payload
  | .diffChunk block data => chunkBytes 0#1 block data
  | .diffStop block unused => chunkBytes 1#1 block unused
  | .cmdPacket region f0 f1 => packetBytes region f0 f1
  | .msgSessionInit tail => messageBytes typeSessionInit tail
  | .msgSessionInfo tail => messageBytes typeSessionInfo tail
  | .msgButtonEvent tail => messageBytes typeButtonEvent tail
  | .msgButtonAck tail => messageBytes typeButtonAck tail
  | .msgOther type tail => messageBytes type tail
  | .keepalive => [0x55#8, 0xAA#8, 0x00#8, 0x00#8]

/-! What the host reads (log entry 8). -/

/-- The selectors of R90. -/
def listedSelector (n : Nat) : Bool :=
  [0x01, 0x02, 0x03, 0x04, 0x05, 0x10, 0x11, 0x12, 0x20, 0x21, 0x22, 0x30].contains n

/-- Which format a word of the table is of: the table's words carry no format, so their length and value tell.
8 bits: a listed selector is a call, any other byte a chunk's block byte.
Longer words: a frame's or packet's magic, the keepalive pattern, else a message type. -/
def tableFormat (nbits w : Nat) : Format :=
  if nbits ≤ 8 then (if listedSelector w then .call else .diffChunk)
  else if w >>> (nbits - 16) = 0xAA55 then .displayFrame
  else if w >>> (nbits - 16) = 0xABCD then .commandPacket
  else if nbits = 32 ∧ w = 0x55AA0000 then .raw
  else .message

/-- The `n` bytes of a number, most significant first, as the table writes its match values (`0xAA55` is `AA 55`). -/
def tableBytes : Nat → Nat → List Byte
  | 0, _ => []
  | n + 1, w => tableBytes n (w / 256) ++ [BitVec.ofNat 8 w]

/-- A byte string with zeros behind it up to length `n`. -/
def zeroPadded (bs : List Byte) (n : Nat) : List Byte := bs ++ List.replicate (n - bs.length) 0#8

/-- How long a table word of the format is with its operand bytes, all zero behind the word's own: a PKT_BUILD call's
selector, type and length; a frame of the size its header then gives; a chunk; an empty packet; a message with a payload
length; a keepalive. -/
def tableLength (f : Format) (word : List Byte) : Nat :=
  match f with
  | .call => 7
  | .displayFrame => 5 + (be16At (zeroPadded word 5) 3).toNat
  | .diffChunk => 9
  | .commandPacket => 8
  | .message => 4
  | .raw => 4

/-- The word's bytes, then zeros. -/
def tablePadded (nbits w : Nat) : List Byte :=
  let word := tableBytes ((nbits + 7) / 8) w
  zeroPadded word (tableLength (tableFormat nbits w) word)

/-- The instruction the decoder reads from a table word, operand bytes of zeros after it. -/
def decodeTableWord (nbits w : Nat) : Option Instr :=
  match decode (tableFormat nbits w) (tablePadded nbits w) with
  | .ok (i, _) => some i
  | .error _ => none

/-- The request that holds exactly the instruction of a table word (all its padded bytes where it is none). -/
def tableRequest (nbits w : Nat) : Request :=
  let bs := tablePadded nbits w
  let used := match decode (tableFormat nbits w) bs with
    | .ok (_, rest) => bs.take (bs.length - rest.length)
    | .error _ => bs
  { format := tableFormat nbits w, bytes := used }

end Sys2Proof
end

