-- ==== Sys2Proof/Machine/Fetch.lean ====
section
/-! DEFINITION. How a step finds its instruction in the host's requests (log entry 2). There is no program counter and no
instruction memory (R28): the order of work is the order in which the host makes requests. -/

namespace Sys2Proof.Machine

/-- What a step finds. -/
inductive Fetched where
  /-- No request waits (R1). -/
  | idle
  /-- The first request has no bytes left. -/
  | spent (inbox : List Request)
  /-- An instruction, and the requests after it is taken. -/
  | run (i : Instr) (inbox : List Request)
  /-- A call of an unlisted selector (R207), and the requests after its one byte is taken. -/
  | unlisted (sel : Byte) (inbox : List Request)
  /-- Bytes that are no instruction of their format. -/
  | stop (e : DecodeError)
  deriving DecidableEq, Repr

/-- The requests after some bytes of the first are taken: what is left of it, unless nothing is, then the others. -/
def requeue (f : Format) (left : List Byte) (others : List Request) : List Request :=
  if left = [] then others else { format := f, bytes := left } :: others

/-- The first instruction of the first request. -/
def fetch (inbox : List Request) : Fetched :=
  match inbox with
  | [] => .idle
  | r :: others =>
    if r.bytes = [] then .spent others
    else
      match decode r.format r.bytes with
      | .ok (i, left) => .run i (requeue r.format left others)
      | .error (.badSelector sel) => .unlisted sel (requeue r.format (r.bytes.drop 1) others)
      | .error (.truncated f) => .stop (.truncated f)
      | .error (.badMagic f) => .stop (.badMagic f)

/-- The requests with one in front of them. -/
def State.withRequest (s : State) (r : Request) : State := s.withInbox (r :: s.inbox)

end Sys2Proof.Machine
end

