-- ==== Sys2Proof/Machine/Step.lean ====
section
/-! DEFINITION. One step: the block idles (R1), or takes one instruction off the host's requests and runs it to its end (R49). -/

namespace Sys2Proof.Machine

/-- One step of the block. -/
def step (s : State) : Host.Outcome State Fault Refusal :=
  match fetch s.inbox with
  | .idle => .next s
  | .spent inbox => .next (s.withInbox inbox)
  | .run i inbox => exec i (s.withInbox inbox)
  | .unlisted sel inbox => (s.withInbox inbox).refuse (.badSelector sel)
  | .stop e => .refused (.undecodable e)

/-- `s` with the instruction of a table word as the host's next request. -/
def State.withFetchWord (s : State) (nbits w : Nat) : State := s.withRequest (tableRequest nbits w)

end Sys2Proof.Machine
end

