-- ==== Sys2Proof/Safety.lean ====
section
/-! DEFINITION. The terms in which claims speak: the invariants of 10_state.md, what a reply or run shows the host, and a host's
list of operations. -/

namespace Sys2Proof.Machine

/-- R26: DISP_RX holds no complete frame. -/
abbrev DispSettled (rx : List Byte) : Prop :=
  rx.length < 5 ∨ (byteOf rx 0 = dispMagic0 ∧ byteOf rx 1 = dispMagic1 ∧ rx.length < 5 + (be16At rx 3).toNat)

/-- R27: CMD_RX holds no complete packet. -/
abbrev CmdSettled (rx : List Byte) : Prop :=
  rx.length < 8 ∨ (byteOf rx 0 = cmdHeader0 ∧ byteOf rx 1 = cmdHeader1 ∧ rx.length < 8 + (le16At rx 2).toNat)

/-- What holds of the block after reset and after every step: BITMAP is 1024 bytes in canonical form (R22), the receive
buffers are within their capacities (R23, R24), DISP_RX holds no complete frame (R26), the capacities admit the largest
frame and packet (R5). -/
abbrev State.Inv (s : State) : Prop :=
  s.bitmap.wf = true ∧ s.dispRx.length ≤ s.params.dispRxCap ∧ s.cmdRx.length ≤ s.params.cmdRxCap ∧
    DispSettled s.dispRx ∧ s.params.wf

/-- The block itself, its parameters included, is the same in both (10_state.md); requests and replies are the host's side. -/
abbrev SameBlock (s t : State) : Prop :=
  t.crcReg = s.crcReg ∧ t.bitmap = s.bitmap ∧ t.dispRx = s.dispRx ∧ t.cmdRx = s.cmdRx ∧ t.params = s.params

/-- The display events of a list of replies, in order. -/
def eventsOf : List Reply → List Event
  | [] => []
  | .events es :: t => es ++ eventsOf t
  | _ :: t => eventsOf t

/-- The fetch results of a list of replies, in order, without their `NeedMore` entries. -/
def resultsOf : List Reply → List FetchResult
  | [] => []
  | .fetch r :: t => (if r = .needMore then [] else [r]) ++ resultsOf t
  | .fetches rs :: t => rs.filter (fun r => r ≠ .needMore) ++ resultsOf t
  | _ :: t => resultsOf t

/-- The replies of `t` after those of `s`. -/
def repliesSince (s t : State) : List Reply := t.replies.drop s.replies.length

/-- A host's operations, one after another (R49, R92); the first that stops ends the run. -/
def runOps : List Instr → State → Result
  | [], s => .next s
  | i :: is, s =>
    match exec i s with
    | .next t => runOps is t
    | .fault f => .fault f
    | .refused r => .refused r

/-- `n` steps of the machine; the first that stops ends the run. -/
def runSteps : Nat → State → Result
  | 0, s => .next s
  | n + 1, s =>
    match step s with
    | .next t => runSteps n t
    | .fault f => .fault f
    | .refused r => .refused r

/-- What becomes of the next state of a result. -/
def mapNext (f : State → State) : Result → Result
  | .next t => .next (f t)
  | .fault e => .fault e
  | .refused r => .refused r

/-! The spec's own notions, written without the model's operations. -/

/-- The two bytes stand at index `k` and the next (00_scope.md §4, find2). -/
abbrev PairAt (b0 b1 : Byte) (s : List Byte) (k : Nat) : Prop := s[k]? = some b0 ∧ s[k + 1]? = some b1

/-- `k` is the first index at which they stand (R133, R174). -/
def FirstPair (b0 b1 : Byte) (s : List Byte) (k : Nat) : Prop :=
  PairAt b0 b1 s k ∧ ∀ j < k, ¬PairAt b0 b1 s j

/-- R111 on natural numbers: the bit step, its result masked to 16 bits. -/
def crcStepNat (c : Nat) : Nat :=
  if c.testBit 15 then ((c <<< 1) ^^^ 0x1021) &&& 0xFFFF else (c <<< 1) &&& 0xFFFF

/-- R111 on natural numbers: the byte update. -/
def crcUpdateNat (c b : Nat) : Nat :=
  let c1 := crcStepNat (crcStepNat (crcStepNat (crcStepNat (c ^^^ (b <<< 8)))))
  crcStepNat (crcStepNat (crcStepNat (crcStepNat c1)))

/-- R100 by index: byte `i` combined with `XOR_KEY[i mod 16]`. -/
def xorByIndex (key : Vector Byte 16) (data : List Byte) : List Byte :=
  data.mapIdx fun i b => b ^^^ key[i % 16]

/-- The two bytes of a number below 65536, least significant first (R43). -/
def littleBytes (n : Nat) : List Byte := [BitVec.ofNat 8 (n % 256), BitVec.ofNat 8 (n / 256)]

/-- R182, R183: the fields of a message of this type. -/
def fieldsOf (type : Word) : MsgTail → MessageFields
  | .short _ => { type := type, plen := none, body := [], payload := [] }
  | .full plen body => { type := type, plen := some plen, body := body, payload := body.take plen.toNat }

/-- R179 to R184: the result of a packet whose de-obfuscated message is `m` and received CRC `crcRx`. -/
def packetResult (enforce : Bool) (m : List Byte) (crcRx : Word) : FetchResult :=
  if m.length < 2 then .malformedShort (BitVec.ofNat 16 m.length)
  else if enforce = true ∧ crc16 m ≠ crcRx then .malformedCrc crcRx (crc16 m)
  else
    .packet {
      type := le16At m 0
      plen := if 4 ≤ m.length then some (le16At m 2) else none
      body := m.drop 4
      payload := if 4 ≤ m.length then (m.drop 4).take (le16At m 2).toNat else []
      crcRx := crcRx
      crcCalc := crc16 m
      crcOk := decide (crc16 m = crcRx) }

end Sys2Proof.Machine
end

