-- ==== Sys2Proof/Certificates/Slice0/Obligations.lean ====
section
/-! DEFINITION. The statements for the provers, after the numbered rules of spec/. -/

open Sys2Proof Sys2Proof.Machine

/-! The machine and its interface. -/

/-- When the bytes of the host's first request decode to an instruction, a step is exec of it, the request left with the
bytes after it (and gone when there are none). The inbox is the model's own (log entry 2). -/
def Obligations.StepRunsTheDecodedInstruction : Prop :=
  ∀ (s : State) (f : Format) (bs left : List Byte) (others : List Request) (i : Instr),
    s.inbox = { format := f, bytes := bs } :: others → decode f bs = .ok (i, left) →
    step s = exec i (s.withInbox (if left = [] then others else { format := f, bytes := left } :: others))

/-- R1: with no operation invoked, nothing changes. -/
def Obligations.IdleBlockDoesNotChange : Prop :=
  ∀ s : State, s.inbox = [] → step s = .next s

/-- R1: the block changes only as an operation of R90 changes it, whatever the host's requests hold. (Requests are the
model's own, log entry 2; which operation a wire row is, log entries 4 and 5.) -/
def Obligations.OnlyAnOperationChangesTheBlock : Prop :=
  ∀ s t : State, step s = .next t →
    SameBlock s t ∨
      ∃ op u, op.format = .call ∧ WellFormed op ∧ exec op s = .next u ∧ SameBlock u t ∧ t.replies = u.replies

/-- R207: a call of a selector that R90 does not list is answered with BadSelector and changes nothing of the block. That
its one byte is taken off the request and the rest stays queued is the model's own (log entry 11). -/
def Obligations.UnlistedSelectorIsRefused : Prop :=
  ∀ (s : State) (sel : Byte) (bs : List Byte) (others : List Request),
    sel ∉ [0x01#8, 0x02#8, 0x03#8, 0x04#8, 0x05#8, 0x10#8, 0x11#8, 0x12#8, 0x20#8, 0x21#8, 0x22#8, 0x30#8] →
    s.inbox = { format := .call, bytes := sel :: bs } :: others →
    step s = .next ((s.withInbox (if bs = [] then others else { format := .call, bytes := bs } :: others)).reply
      (.badSelector sel))

/-- Decoding an encoded well-formed instruction gives it back, with nothing left over. -/
def Obligations.DecodeOfEncodeIsTheInstruction : Prop :=
  ∀ i : Instr, WellFormed i → decode i.format (encode i) = .ok (i, [])

/-- Calls, frames, packets, keepalives and chunks end where they end, whatever bytes follow. -/
def Obligations.EncodedInstructionsFollowOneAnother : Prop :=
  ∀ (i : Instr) (rest : List Byte), WellFormed i →
    (i.format ∈ [Format.call, .displayFrame, .commandPacket, .raw] ∨ ∃ b d, i = .diffChunk b d) →
    decode i.format (encode i ++ rest) = .ok (i, rest)

/-- R91, R92: a listing of operations, one call encoding behind another, runs line by line: as many steps as lines give
what the operations give one after another, one reply a line. That a listing stands in one request and is taken
instruction by instruction is the model's own (log entry 2). -/
def Obligations.ListingRunsLineByLine : Prop :=
  ∀ (is : List Instr) (s : State), is ≠ [] → (∀ i ∈ is, WellFormed i ∧ i.format = .call) →
    s.inbox = [{ format := .call, bytes := (is.map encode).flatten }] →
    ∃ t, runOps is (s.withInbox []) = .next t ∧ runSteps is.length s = .next t ∧
      t.replies.length = s.replies.length + is.length

/-- Words written out from the spec's encodings: all twelve selectors of R90 with their operands (R91), and one that is not
listed (R207); R63, R66, R67, R69, R89. -/
def Obligations.WordsOfTheSpecDecode : Prop :=
  decode .call [0x01, 0x03, 0x00, 0x00, 0x00, 0x00, 0x01, 0x02] = .ok (.xorApply [0x00, 0x01, 0x02], []) ∧
  decode .call [0x02] = .ok (.crcInit, []) ∧
  decode .call [0x03, 0x31] = .ok (.crcByte 0x31, []) ∧
  decode .call [0x04] = .ok (.crcRead, []) ∧
  decode .call [0x05, 0x02, 0x00, 0x00, 0x00, 0x31, 0x32] = .ok (.crc16 [0x31, 0x32], []) ∧
  decode .call [0x10, 0x02, 0x00, 0x00, 0x00, 0xAA, 0x55] = .ok (.dispIngest [0xAA, 0x55], []) ∧
  decode .call [0x11, 0x08, 0x00] = .ok (.dispPixel 8 0, []) ∧
  decode .call [0x12] = .ok (.dispRead, []) ∧
  decode .call [0x20, 0x14, 0x05, 0x04, 0x00, 0x00, 0x00, 0x78, 0x56, 0x34, 0x12] =
    .ok (.pktBuild 0x0514 [0x78, 0x56, 0x34, 0x12], []) ∧
  decode .call [0x21] = .ok (.pktFetch, []) ∧
  decode .call [0x22, 0x02, 0x00, 0x00, 0x00, 0xAB, 0xCD] = .ok (.cmdIngest [0xAB, 0xCD], []) ∧
  decode .call [0x30] = .ok (.reset, []) ∧
  decode .call [0x40] = .error (.badSelector 0x40) ∧
  decode .displayFrame [0xAA, 0x55, 0x02, 0x00, 0x09, 0x05, 1, 2, 3, 4, 5, 6, 7, 8] =
    .ok (.dispDiff [0x05, 1, 2, 3, 4, 5, 6, 7, 8], []) ∧
  decode .displayFrame [0xAA, 0x55, 0x07, 0x00, 0x01, 0x33] = .ok (.dispUnknown 7 [0x33], []) ∧
  decode .diffChunk [0x05, 1, 2, 3, 4, 5, 6, 7, 8] = .ok (.diffChunk 5 [1, 2, 3, 4, 5, 6, 7, 8], []) ∧
  decode .diffChunk [0x85, 1, 2, 3, 4, 5, 6, 7, 8] = .ok (.diffStop 5 [1, 2, 3, 4, 5, 6, 7, 8], []) ∧
  decode .commandPacket [0xAB, 0xCD, 0x01, 0x00, 0x77, 0x88, 0x99, 0xDC, 0xBA] =
    .ok (.cmdPacket [0x77, 0x88, 0x99] 0xDC 0xBA, []) ∧
  decode .message [0x14, 0x05, 0x04, 0x00, 0x78, 0x56, 0x34, 0x12] =
    .ok (.msgSessionInit (.full 4 [0x78, 0x56, 0x34, 0x12]), []) ∧
  decode .message [0x11, 0x06, 0x04, 0x00, 0x07, 0x00, 0x00, 0x02] =
    .ok (.msgButtonAck (.full 4 [0x07, 0x00, 0x00, 0x02]), []) ∧
  decode .raw [0x55, 0xAA, 0x00, 0x00] = .ok (.keepalive, [])

/-- R63, R64: the row of a display frame is decided by type and size alone. -/
def Obligations.FrameRowIsDecidedByTypeAndSize : Prop :=
  ∀ (type : Byte) (p rest : List Byte), p.length < 65536 →
    decode .displayFrame ([0xAA#8, 0x55#8, type, BitVec.ofNat 8 (p.length / 256), BitVec.ofNat 8 (p.length % 256)] ++ p ++ rest) =
      .ok (if type = 1 ∧ p.length = 1024 then .dispScreenshot p
           else if type = 2 ∧ p.length % 9 = 0 then .dispDiff p
           else .dispUnknown type p, rest)

/-- R43, R44: the value of an assembled field. -/
def Obligations.FieldsAreAssembledInTheirByteOrder : Prop :=
  ∀ (s : List Byte) (o : Nat), o + 3 < s.length →
    (le16At s o).toNat = (byteOf s o).toNat + 256 * (byteOf s (o + 1)).toNat ∧
    (be16At s o).toNat = 256 * (byteOf s o).toNat + (byteOf s (o + 1)).toNat ∧
    (le32At s o).toNat = (byteOf s o).toNat + 256 * (byteOf s (o + 1)).toNat + 65536 * (byteOf s (o + 2)).toNat +
      16777216 * (byteOf s (o + 3)).toNat ∧
    s[o]? = some (byteOf s o)

/-! Invariants and whole-machine rules. -/

/-- R22, R23, R24, R26: what State.Inv says holds after every step. -/
def Obligations.EveryStepKeepsTheInvariant : Prop :=
  ∀ s t : State, s.Inv → step s = .next t → t.Inv

/-- The invariant holds after reset, for every choice of parameters that R5 allows. -/
def Obligations.ResetMeetsTheInvariant : Prop :=
  State.reset.Inv ∧ ∀ p : Params, p.wf → (State.resetWith p).Inv

/-- R200: every operation, and every wire row, run on a term some encoding gives, returns with a next state. -/
def Obligations.EveryWellFormedInstructionCompletes : Prop :=
  ∀ (i : Instr) (s : State), WellFormed i → ∃ t, exec i s = .next t

/-- R20 to R24, R29, R40, R41: which instructions can change which part of the block; none changes a parameter or the
host's requests, and each adds at most one reply behind those already given. Among the operations only DISP_INGEST, PKT_FETCH,
CMD_INGEST and RESET stand for DISP_RX, BITMAP and CMD_RX; that the frame and chunk rows are DISP_INGEST and the packet row is
CMD_INGEST is the model's own (log entries 4 and 5). -/
def Obligations.OnlyTheNamedInstructionsChangeEachPart : Prop :=
  ∀ (i : Instr) (s t : State), exec i s = .next t →
    t.params = s.params ∧ t.inbox = s.inbox ∧
    (∃ rs, t.replies = s.replies ++ rs ∧ rs.length ≤ 1) ∧
    (t.crcReg ≠ s.crcReg → i = .crcInit ∨ (∃ b, i = .crcByte b) ∨ i = .reset) ∧
    (t.dispRx ≠ s.dispRx → (∃ d, i = .dispIngest d) ∨ i.format = .displayFrame ∨ i.format = .diffChunk ∨ i = .reset) ∧
    (t.cmdRx ≠ s.cmdRx → (∃ d, i = .cmdIngest d) ∨ i = .pktFetch ∨ i.format = .commandPacket ∨ i = .reset) ∧
    ((∃ a, t.bitmap.byteAt a ≠ s.bitmap.byteAt a) →
      (∃ d, i = .dispIngest d) ∨ i.format = .displayFrame ∨ i.format = .diffChunk ∨ i = .reset)

/-- R21: no operation writes XOR_KEY (nor any parameter), RESET and refused selectors included. -/
def Obligations.NoStepWritesTheKey : Prop :=
  ∀ s t : State, step s = .next t → t.params = s.params

/-- R53: what was handed to the host, copies of BITMAP included, is not changed by a later step. -/
def Obligations.NoStepChangesAReplyAlreadyGiven : Prop :=
  ∀ s t : State, step s = .next t → s.replies <+: t.replies

/-- R204, first sentence: an operation that ends in a refusal leaves every piece of block state as it was. -/
def Obligations.RefusalLeavesTheBlockAsItWas : Prop :=
  ∀ (i : Instr) (s t : State) (r : Reply), exec i s = .next t → t.replies = s.replies ++ [r] →
    (r = .capacityExceeded ∨ (∃ p, r = .lengthOverflow p) ∨ ∃ x y, r = .outOfRange x y) → t = s.reply r

/-- R25: an operation on one receive buffer neither reads nor writes the other. -/
def Obligations.TheReceiveBuffersAreSeparate : Prop :=
  (∀ (d : List Byte) (s : State) (q : List Byte),
    exec (.dispIngest d) (s.withCmdRx q) = mapNext (fun t => t.withCmdRx q) (exec (.dispIngest d) s)) ∧
  (∀ (d : List Byte) (s : State) (q : List Byte),
    exec (.cmdIngest d) (s.withDispRx q) = mapNext (fun t => t.withDispRx q) (exec (.cmdIngest d) s)) ∧
  (∀ (s : State) (q : List Byte),
    exec .pktFetch (s.withDispRx q) = mapNext (fun t => t.withDispRx q) (exec .pktFetch s))

/-- R212: which of the two parsers the host feeds first changes only the order of their replies. -/
def Obligations.FeedingOrderChangesOnlyTheReplyOrder : Prop :=
  ∀ (s : State) (a b : List Byte), ∃ t u r1 r2,
    runOps [.dispIngest a, .cmdIngest b] s = .next t ∧ runOps [.cmdIngest b, .dispIngest a] s = .next u ∧
    t.replies = s.replies ++ [r1, r2] ∧ u = { t with replies := s.replies ++ [r2, r1] }

/-- R220: RESET sets the four elements, leaves the parameters, answers Ok; twice is as once; after it DISP_READ gives 1024
zero bytes and CRC_READ gives 0. -/
def Obligations.ResetSetsTheFourElements : Prop :=
  ∀ s : State,
    (∃ t, exec .reset s = .next t ∧ t.crcReg = 0x0000#16 ∧ (∀ a, t.bitmap.byteAt a = 0x00#8) ∧
      t.bitmap.copy = List.replicate 1024 0x00#8 ∧ t.dispRx = [] ∧ t.cmdRx = [] ∧ t.params = s.params ∧
      t.inbox = s.inbox ∧ t.replies = s.replies ++ [.done] ∧
      exec .reset t = .next (t.reply .done)) ∧
    (∃ t, runOps [.reset, .dispRead, .crcRead] s = .next t ∧
      t.replies = s.replies ++ [.done, .bytes (List.replicate 1024 0x00#8), .word 0x0000#16])

/-- R201, R203: the code of every reply, fetch result and event. A message handed over is the model's own reply, an `Ok` (log
entry 6). -/
def Obligations.OutcomesCarryTheirCodes : Prop :=
  (∀ p, FetchResult.code (.packet p) = 0x00#8) ∧ FetchResult.code .needMore = 0x01#8 ∧ FetchResult.code .resync = 0x02#8 ∧
  (∀ n, FetchResult.code (.malformedShort n) = 0x03#8) ∧ (∀ a b, FetchResult.code (.malformedCrc a b) = 0x04#8) ∧
  (∀ r, Reply.code (.fetch r) = r.code) ∧ (∀ n, Reply.code (.lengthOverflow n) = 0x05#8) ∧
  Reply.code .capacityExceeded = 0x06#8 ∧ (∀ x y, Reply.code (.outOfRange x y) = 0x07#8) ∧
  (∀ x, Reply.code (.badSelector x) = 0x08#8) ∧ Reply.code .done = 0x00#8 ∧ (∀ v, Reply.code (.bytes v) = 0x00#8) ∧
  (∀ v, Reply.code (.word v) = 0x00#8) ∧ (∀ v, Reply.code (.bit v) = 0x00#8) ∧ (∀ v, Reply.code (.events v) = 0x00#8) ∧
  (∀ rs, Reply.code (.fetches rs) = 0x00#8) ∧ (∀ m v, Reply.code (.message m v) = 0x00#8) ∧
  (∀ b, Event.code (.fullFrameReceived b) = 0x10#8) ∧ (∀ b, Event.code (.diffApplied b) = 0x11#8) ∧
  (∀ a b, Event.code (.unknownFrame a b) = 0x12#8)

/-! The codec and the CRC. -/

/-- R100: XOR_APPLY combines byte `i` with key byte `i mod 16`, and changes no state. -/
def Obligations.XorApplyCombinesEachByteWithItsKeyByte : Prop :=
  ∀ (s : State) (d : List Byte), exec (.xorApply d) s = .next (s.reply (.bytes (xorByIndex s.params.xorKey d)))

/-- R101: XOR_APPLY is its own inverse, for every key. -/
def Obligations.XorApplyTwiceRestoresTheBytes : Prop :=
  ∀ (s : State) (d : List Byte), ∃ out, exec (.xorApply d) s = .next (s.reply (.bytes out)) ∧
    exec (.xorApply out) s = .next (s.reply (.bytes d))

/-- R102: two calls give the result of one when the first one's length is a multiple of 16. -/
def Obligations.XorApplySplitsAtMultiplesOfTheKeyLength : Prop :=
  ∀ (s : State) (d e : List Byte), d.length % 16 = 0 → ∃ a b,
    exec (.xorApply d) s = .next (s.reply (.bytes a)) ∧ exec (.xorApply e) s = .next (s.reply (.bytes b)) ∧
    exec (.xorApply (d ++ e)) s = .next (s.reply (.bytes (a ++ b)))

/-- R114, R116: CRC_INIT clears the register, CRC_READ hands it over; neither changes anything else. -/
def Obligations.CrcInitClearsAndCrcReadHandsOver : Prop :=
  ∀ s : State, exec .crcInit s = .next ((s.withCrcReg 0x0000#16).reply .done) ∧
    exec .crcRead s = .next (s.reply (.word s.crcReg))

/-- R111, R115: CRC_BYTE puts the byte into bits 15 to 8 and does 8 bit steps, each masked to 16 bits. -/
def Obligations.CrcByteDoesEightBitSteps : Prop :=
  ∀ (s : State) (b : Byte), ∃ v : Word, v.toNat = crcUpdateNat s.crcReg.toNat b.toNat ∧
    exec (.crcByte b) s = .next ((s.withCrcReg v).reply .done)

/-- R112: CRC16 updates 0 with each byte in turn, and reads and writes no block state. -/
def Obligations.Crc16UpdatesWithEachByte : Prop :=
  ∀ (s : State) (d : List Byte), ∃ v : Word, v.toNat = d.foldl (fun c b => crcUpdateNat c b.toNat) 0 ∧
    exec (.crc16 d) s = .next (s.reply (.word v))

/-- R117: the register view gives what CRC16 gives, and no other operation reads or writes CRC_REG, so it may be
interleaved with any. -/
def Obligations.RegisterViewAgreesAndDoesNotInterfere : Prop :=
  (∀ (s : State) (d : List Byte), ∃ t v, runOps (.crcInit :: (d.map Instr.crcByte ++ [.crcRead])) s = .next t ∧
    t.replies.getLast? = some (.word v) ∧ t.crcReg = v ∧ exec (.crc16 d) s = .next (s.reply (.word v))) ∧
  (∀ (i : Instr) (s : State) (v : Word), i ≠ .crcInit → (∀ b, i ≠ .crcByte b) → i ≠ .crcRead → i ≠ .reset →
    exec i (s.withCrcReg v) = mapNext (fun t => t.withCrcReg v) (exec i s))

/-- R118: zero prefix, residue (most significant byte first, and not the other way round), linearity. -/
def Obligations.CrcLaws : Prop :=
  (∀ (s : State) (d : List Byte), exec (.crc16 (0x00#8 :: d)) s = exec (.crc16 d) s) ∧
  (∀ (s : State) (d : List Byte) (c : Word), exec (.crc16 d) s = .next (s.reply (.word c)) →
    exec (.crc16 (d ++ [c.extractLsb' 8 8, c.extractLsb' 0 8])) s = .next (s.reply (.word 0x0000#16))) ∧
  (∃ d : List Byte, crc16 (d ++ [(crc16 d).extractLsb' 0 8, (crc16 d).extractLsb' 8 8]) ≠ 0x0000#16) ∧
  (∀ (s : State) (d e : List Byte) (c g : Word), d.length = e.length → exec (.crc16 d) s = .next (s.reply (.word c)) →
    exec (.crc16 e) s = .next (s.reply (.word g)) →
    exec (.crc16 (List.zipWith (· ^^^ ·) d e)) s = .next (s.reply (.word (c ^^^ g))))

/-! The display parser and the bitmap. -/

/-- R47: an ingest that would pass its buffer's cap is refused with nothing changed; any other first appends its bytes at
the end of its buffer. -/
def Obligations.IngestAppendsWithinTheCap : Prop :=
  ∀ (s : State) (d : List Byte),
    (s.params.dispRxCap < s.dispRx.length + d.length → exec (.dispIngest d) s = .next (s.reply .capacityExceeded)) ∧
    (s.dispRx.length + d.length ≤ s.params.dispRxCap →
      exec (.dispIngest d) s = exec (.dispIngest []) (s.withDispRx (s.dispRx ++ d)) ∧
      ∃ t es, exec (.dispIngest d) s = .next t ∧ t.replies = s.replies ++ [.events es]) ∧
    (s.params.cmdRxCap < s.cmdRx.length + d.length → exec (.cmdIngest d) s = .next (s.reply .capacityExceeded)) ∧
    (s.cmdRx.length + d.length ≤ s.params.cmdRxCap →
      exec (.cmdIngest d) s = exec (.cmdIngest []) (s.withCmdRx (s.cmdRx ++ d)) ∧
      ∃ t rs, exec (.cmdIngest d) s = .next t ∧ t.replies = s.replies ++ [.fetches rs])

/-- R132, R134, R135, R136: where the extraction loop returns, what it leaves in DISP_RX; no event, nothing else changed.
(The bytes of an ingest stand in DISP_RX already, IngestAppendsWithinTheCap.) -/
def Obligations.DisplayParserWaitsWithoutAWholeFrame : Prop :=
  ∀ s : State, s.dispRx.length ≤ s.params.dispRxCap →
    (s.dispRx.length < 5 → exec (.dispIngest []) s = .next (s.reply (.events []))) ∧
    (5 ≤ s.dispRx.length → (∀ k, ¬PairAt 0xAA 0x55 s.dispRx k) →
      exec (.dispIngest []) s = .next ((s.withDispRx (s.dispRx.drop (s.dispRx.length - 1))).reply (.events []))) ∧
    (∀ k, 5 ≤ s.dispRx.length → FirstPair 0xAA 0x55 s.dispRx k →
      (s.dispRx.length - k < 5 ∨ s.dispRx.length - k < 5 + (be16At s.dispRx (k + 3)).toNat) →
      exec (.dispIngest []) s = .next ((s.withDispRx (s.dispRx.drop k)).reply (.events [])))

/-- R131, R137, R138: a whole frame behind the first header is taken off DISP_RX and handled as the same frame ingested by
itself is (one event; what it is, the statements about each class), and the loop goes on with the bytes after it. -/
def Obligations.DisplayParserTakesAWholeFrame : Prop :=
  ∀ (s : State) (k : Nat), s.dispRx.length ≤ s.params.dispRxCap → FirstPair 0xAA 0x55 s.dispRx k →
    5 ≤ s.dispRx.length - k → 5 + (be16At s.dispRx (k + 3)).toNat ≤ s.dispRx.length - k →
    let size := (be16At s.dispRx (k + 3)).toNat
    let frame := (s.dispRx.drop k).take (5 + size)
    decode .displayFrame frame = .ok (frameInstr (byteOf s.dispRx (k + 2)) ((s.dispRx.drop (k + 5)).take size), []) ∧
    ∃ u e w es,
      exec (.dispIngest frame) (s.withDispRx []) = .next u ∧ u.dispRx = [] ∧ u.replies = s.replies ++ [.events [e]] ∧
      exec (.dispIngest []) ((s.withBitmap u.bitmap).withDispRx (s.dispRx.drop (k + 5 + size))) = .next w ∧
      w.replies = s.replies ++ [.events es] ∧
      exec (.dispIngest []) s = .next { w with replies := s.replies ++ [.events (e :: es)] }

/-- R140, R65: a Screenshot ingested into an empty DISP_RX replaces all 1024 bytes of BITMAP, and its event carries them; its
row is the same (the model's own, log entry 4). -/
def Obligations.ScreenshotReplacesTheBitmap : Prop :=
  ∀ (s : State) (p : List Byte), p.length = 1024 → s.dispRx = [] → s.params.wf → ∃ t,
    exec (.dispScreenshot p) s = .next t ∧
    exec (.dispIngest ([0xAA#8, 0x55#8, 0x01#8, 0x04#8, 0x00#8] ++ p)) s = .next t ∧
    (∀ a, t.bitmap.byteAt a = if a < 1024 then byteOf p a else s.bitmap.byteAt a) ∧ t.bitmap.copy = p ∧
    t = (s.withBitmap t.bitmap).reply (.events [.fullFrameReceived p])

/-- R66, R141 to R144: of a Diff ingested into an empty DISP_RX, the chunks before the first stop marker apply in order, so
that the last one that names a block stands; every other byte is as before; one DiffApplied carries a copy of BITMAP. Its
row is the same (the model's own, log entry 4). -/
def Obligations.DiffAppliesItsChunksUpToTheStop : Prop :=
  ∀ (s : State) (cs : List (Byte × List Byte)), (∀ c ∈ cs, c.2.length = 8) → cs.length ≤ 7281 → s.dispRx = [] →
    s.params.wf →
    let p := cs.flatMap fun c => c.1 :: c.2
    ∃ t, exec (.dispDiff p) s = .next t ∧
      exec (.dispIngest ([0xAA#8, 0x55#8, 0x02#8, BitVec.ofNat 8 (p.length / 256), BitVec.ofNat 8 (p.length % 256)] ++ p)) s =
        .next t ∧
      (∀ a, t.bitmap.byteAt a =
        match (cs.takeWhile fun c => c.1.toNat < 128).reverse.find? (fun c => c.1.toNat == a / 8) with
        | some c => byteOf c.2 (a % 8)
        | none => s.bitmap.byteAt a) ∧
      t = (s.withBitmap t.bitmap).reply (.events [.diffApplied t.bitmap.copy])

/-- R145: any other frame ingested into an empty DISP_RX is reported with its type and size, and BITMAP is unchanged; its
row is the same (the model's own, log entry 4). -/
def Obligations.UnknownFrameIsOnlyReported : Prop :=
  ∀ (s : State) (type : Byte) (p : List Byte), p.length < 65536 → ¬(type = 1 ∧ p.length = 1024) →
    ¬(type = 2 ∧ p.length % 9 = 0) → s.dispRx = [] → s.params.wf →
    ∃ size : Word, size.toNat = p.length ∧
      exec (.dispUnknown type p) s = .next (s.reply (.events [.unknownFrame type size])) ∧
      exec (.dispIngest ([0xAA#8, 0x55#8, type, BitVec.ofNat 8 (p.length / 256), BitVec.ofNat 8 (p.length % 256)] ++ p)) s =
        .next (s.reply (.events [.unknownFrame type size]))

/-- R143, R144: a chunk replaces the 8 bytes of its block and no other byte. That a chunk by itself is the ingest of a Diff of
one chunk, with that frame's event, is the model's own (log entry 4). -/
def Obligations.ChunkReplacesItsBlock : Prop :=
  ∀ (s : State) (b : BitVec 7) (d : List Byte), d.length = 8 → s.dispRx = [] → s.params.wf →
    ∃ t, exec (.diffChunk b d) s = .next t ∧
      (∀ a, t.bitmap.byteAt a =
        if 8 * b.toNat ≤ a ∧ a < 8 * b.toNat + 8 then byteOf d (a - 8 * b.toNat) else s.bitmap.byteAt a) ∧
      t = (s.withBitmap t.bitmap).reply (.events [.diffApplied t.bitmap.copy])

/-- R142, R144, R89: a stop marker by itself changes nothing of the block, and the Diff it is has its event (log entry 4); a
keepalive changes nothing at all (log entry 7). -/
def Obligations.StopMarkerAndKeepaliveChangeNothing : Prop :=
  ∀ s : State,
    (∀ (b : BitVec 7) (u : List Byte), 8 ≤ u.length → s.dispRx = [] → s.params.wf →
      exec (.diffStop b u) s = .next (s.reply (.events [.diffApplied s.bitmap.copy]))) ∧
    exec .keepalive s = .next s

/-- R141 to R143: a diff payload run chunk by chunk, one step a chunk, leaves the BITMAP that the frame leaves, and the last
event carries it; before it come only events of the same kind (chunks by themselves are log entry 4). -/
def Obligations.ChunkByChunkIsTheDiff : Prop :=
  ∀ (s : State) (p : List Byte), p.length % 9 = 0 → p.length < 65536 → s.dispRx = [] → s.params.wf →
    s.inbox = [{ format := .diffChunk, bytes := p }] →
    ∃ t u, runSteps (p.length / 9) s = .next t ∧ exec (.dispDiff p) s = .next u ∧ t.bitmap = u.bitmap ∧ t.dispRx = [] ∧
      (∀ e ∈ eventsOf (repliesSince s t), ∃ v, e = .diffApplied v) ∧
      (p ≠ [] → (eventsOf (repliesSince s t)).getLast? = some (.diffApplied u.bitmap.copy))

/-- R1: frames, chunks and packets reach the block by DISP_INGEST and CMD_INGEST alone, whatever waits in the buffers: a
frame's row is the ingest of its bytes, a chunk's or stop marker's that of a Diff of this one chunk, a packet's that of its
bytes (the model's own, log entries 4 and 5). -/
def Obligations.WireRowsAreTheOperationsThatReadThem : Prop :=
  ∀ (s : State) (i : Instr), WellFormed i →
    (i.format = .displayFrame → exec i s = exec (.dispIngest (encode i)) s) ∧
    (i.format = .diffChunk →
      exec i s = exec (.dispIngest ([0xAA#8, 0x55#8, 0x02#8, 0x00#8, 0x09#8] ++ (encode i).take 9)) s) ∧
    (i.format = .commandPacket → exec i s = exec (.cmdIngest (encode i)) s)

/-- R42, R146: the bit of a pixel inside the display; OutOfRange, and nothing changed, outside it. -/
def Obligations.PixelReadGivesItsBit : Prop :=
  ∀ (s : State) (x y : Byte),
    (x.toNat < 128 → y.toNat < 64 →
      exec (.dispPixel x y) s =
        .next (s.reply (.bit ((s.bitmap.byteAt (16 * y.toNat + x.toNat / 8)).getLsbD (x.toNat % 8))))) ∧
    (128 ≤ x.toNat ∨ 64 ≤ y.toNat → exec (.dispPixel x y) s = .next (s.reply (.outOfRange x y)))

/-- R147: DISP_READ gives exactly 1024 bytes, those of BITMAP, and changes nothing. -/
def Obligations.DispReadGivesTheBitmap : Prop :=
  ∀ s : State, ∃ v, exec .dispRead s = .next (s.reply (.bytes v)) ∧ v.length = 1024 ∧
    (s.bitmap.wf = true → ∀ a < 1024, v[a]? = some (s.bitmap.byteAt a))

/-- R26: after every DISP_INGEST, DISP_RX holds no complete frame. -/
def Obligations.DispRxIsSettledAfterIngest : Prop :=
  ∀ (s t : State) (d : List Byte), exec (.dispIngest d) s = .next t →
    (DispSettled s.dispRx ∨ s.dispRx.length + d.length ≤ s.params.dispRxCap) → DispSettled t.dispRx

/-- R151, and the corner case of R186: an empty ingest changes no state and has no event, or no result but NeedMore. -/
def Obligations.EmptyIngestChangesNothing : Prop :=
  ∀ s : State,
    (DispSettled s.dispRx → s.dispRx.length ≤ s.params.dispRxCap →
      exec (.dispIngest []) s = .next (s.reply (.events []))) ∧
    (CmdSettled s.cmdRx → s.cmdRx.length ≤ s.params.cmdRxCap →
      exec (.cmdIngest []) s = .next (s.reply (.fetches [.needMore])))

/-- R150, R187: at most a fifth as many frames as bytes, and at most half as many attempts as bytes, and one. -/
def Obligations.IngestsEndWithinTheirBounds : Prop :=
  (∀ (s t : State) (d : List Byte) (es : List Event), exec (.dispIngest d) s = .next t →
    t.replies = s.replies ++ [.events es] → es.length ≤ (s.dispRx.length + d.length) / 5) ∧
  (∀ (s t : State) (d : List Byte) (rs : List FetchResult), exec (.cmdIngest d) s = .next t →
    t.replies = s.replies ++ [.fetches rs] → rs.length ≤ (s.cmdRx.length + d.length) / 2 + 1)

/-- R148: however a stream is cut, the display events and BITMAP are those of the stream fed whole, and no later bytes
tell the two apart. -/
def Obligations.DisplayParserDoesNotSeeTheCuts : Prop :=
  ∀ (s : State) (pieces : List (List Byte)), pieces ≠ [] ∨ DispSettled s.dispRx →
    s.dispRx.length + pieces.flatten.length ≤ s.params.dispRxCap →
    ∃ t u, runOps (pieces.map Instr.dispIngest) s = .next t ∧ exec (.dispIngest pieces.flatten) s = .next u ∧
      eventsOf (repliesSince s t) = eventsOf (repliesSince s u) ∧ t.bitmap = u.bitmap ∧
      ∀ later, t.dispRx.length + later.length ≤ t.params.dispRxCap → u.dispRx.length + later.length ≤ u.params.dispRxCap →
        ∃ t' u', exec (.dispIngest later) t = .next t' ∧ exec (.dispIngest later) u = .next u' ∧
          eventsOf (repliesSince t t') = eventsOf (repliesSince u u') ∧ t'.bitmap = u'.bitmap

/-- 95_test_vectors.md S1: any split of a full frame gives exactly one FullFrameReceived with the original 1024 bytes. -/
def Obligations.AnySplitOfAFullFrameGivesItOnce : Prop :=
  ∀ (s : State) (p : List Byte) (pieces : List (List Byte)), p.length = 1024 → s.dispRx = [] → s.params.wf →
    pieces.flatten = [0xAA#8, 0x55#8, 0x01#8, 0x04#8, 0x00#8] ++ p →
    ∃ t, runOps (pieces.map Instr.dispIngest) s = .next t ∧ eventsOf (repliesSince s t) = [.fullFrameReceived p] ∧
      t.bitmap.copy = p ∧ t.dispRx = []

/-! The command framer. -/

/-- R160, R161, R163, R164: the packet of a message, byte for byte; no block state changes. -/
def Obligations.BuildLaysOutThePacket : Prop :=
  ∀ (s : State) (type : Word) (p : List Byte), p.length ≤ 65530 →
    let m := littleBytes type.toNat ++ littleBytes p.length ++ p ++ (if p.length % 2 = 1 then [0x00#8] else [])
    exec (.pktBuild type p) s = .next (s.reply (.bytes (
      [0xAB#8, 0xCD#8] ++ littleBytes m.length ++ xorByIndex s.params.xorKey (m ++ littleBytes (crc16 m).toNat) ++
        [0xDC#8, 0xBA#8])))

/-- R162: a longer payload is refused, with its length, and no bytes. -/
def Obligations.BuildRefusesALongPayload : Prop :=
  ∀ (s : State) (type : Word) (p : List Byte), 65530 < p.length →
    exec (.pktBuild type p) s = .next (s.reply (.lengthOverflow p.length))

/-- R173 to R176: where PKT_FETCH needs more, what it leaves in CMD_RX. -/
def Obligations.FetchNeedsMoreWithoutAWholePacket : Prop :=
  ∀ s : State,
    (s.cmdRx.length < 8 → exec .pktFetch s = .next (s.reply (.fetch .needMore))) ∧
    (8 ≤ s.cmdRx.length → (∀ k, ¬PairAt 0xAB 0xCD s.cmdRx k) →
      exec .pktFetch s =
        .next ((s.withCmdRx (if s.cmdRx.getLast? = some 0xAB then [0xAB] else [])).reply (.fetch .needMore))) ∧
    (∀ k, 8 ≤ s.cmdRx.length → FirstPair 0xAB 0xCD s.cmdRx k →
      (s.cmdRx.length - k < 8 ∨ s.cmdRx.length - k < 8 + (le16At s.cmdRx (k + 2)).toNat) →
      exec .pktFetch s = .next ((s.withCmdRx (s.cmdRx.drop k)).reply (.fetch .needMore)))

/-- R177: without the footer at its place, exactly the 2 header bytes are removed (and the garbage before them). -/
def Obligations.FetchResyncsOnABadFooter : Prop :=
  ∀ (s : State) (k n : Nat), FirstPair 0xAB 0xCD s.cmdRx k → n = (le16At s.cmdRx (k + 2)).toNat →
    8 + n ≤ s.cmdRx.length - k → ¬PairAt 0xDC 0xBA s.cmdRx (k + 6 + n) →
    exec .pktFetch s = .next ((s.withCmdRx (s.cmdRx.drop (k + 2))).reply (.fetch .resync))

/-- R178 to R184: a whole packet is removed, its region de-obfuscated from key index 0, and its result is MalformedShort,
MalformedCrc (only when enforced) or the Packet with its fields. -/
def Obligations.FetchTakesAWholePacket : Prop :=
  ∀ (s : State) (k n : Nat), FirstPair 0xAB 0xCD s.cmdRx k → n = (le16At s.cmdRx (k + 2)).toNat →
    8 + n ≤ s.cmdRx.length - k → PairAt 0xDC 0xBA s.cmdRx (k + 6 + n) →
    let region := xorByIndex s.params.xorKey ((s.cmdRx.drop (k + 4)).take (n + 2))
    exec .pktFetch s = .next ((s.withCmdRx (s.cmdRx.drop (k + 8 + n))).reply
      (.fetch (packetResult s.params.crcEnforce (region.take n) (le16At region n))))

/-- R186: CMD_INGEST appends and fetches until NeedMore, and hands over the results in order; past the cap it is refused. -/
def Obligations.CmdIngestFetchesUntilNeedMore : Prop :=
  ∀ (s : State) (d : List Byte),
    (s.params.cmdRxCap < s.cmdRx.length + d.length → exec (.cmdIngest d) s = .next (s.reply .capacityExceeded)) ∧
    (s.cmdRx.length + d.length ≤ s.params.cmdRxCap →
      ∃ (n : Nat) (t : State) (rs : List FetchResult),
        runOps (List.replicate (n + 1) .pktFetch) (s.withCmdRx (s.cmdRx ++ d)) = .next t ∧ rs.length = n ∧
        (∀ r ∈ rs, r ≠ .needMore) ∧
        t.replies = s.replies ++ (rs.map Reply.fetch ++ [.fetch .needMore]) ∧
        exec (.cmdIngest d) s = .next ((s.withCmdRx t.cmdRx).reply (.fetches (rs ++ [.needMore]))))

/-- R27: after a CMD_INGEST that was not refused, CMD_RX holds no complete packet. -/
def Obligations.CmdRxIsSettledAfterIngest : Prop :=
  ∀ (s t : State) (d : List Byte), exec (.cmdIngest d) s = .next t →
    s.cmdRx.length + d.length ≤ s.params.cmdRxCap → CmdSettled t.cmdRx

/-- R185: a built packet, fed into an empty CMD_RX, comes back with its type and payload and a CRC that compares,
whichever the policy. -/
def Obligations.BuildThenIngestRoundTrips : Prop :=
  ∀ (s : State) (type : Word) (q : List Byte), s.cmdRx = [] → s.params.wf → q.length ≤ 65530 →
    ∃ packet c, exec (.pktBuild type q) s = .next (s.reply (.bytes packet)) ∧
      exec (.cmdIngest packet) s = .next (s.reply (.fetches [
        .packet { type := type, plen := some (BitVec.ofNat 16 q.length),
                  body := q ++ (if q.length % 2 = 1 then [0x00#8] else []), payload := q,
                  crcRx := c, crcCalc := c, crcOk := true },
        .needMore]))

/-- R188: however a stream is cut, the results but NeedMore are those of the stream fed whole, and no later bytes tell
the two apart. -/
def Obligations.CommandParserDoesNotSeeTheCuts : Prop :=
  ∀ (s : State) (pieces : List (List Byte)), pieces ≠ [] ∨ CmdSettled s.cmdRx →
    s.cmdRx.length + pieces.flatten.length ≤ s.params.cmdRxCap →
    ∃ t u, runOps (pieces.map Instr.cmdIngest) s = .next t ∧ exec (.cmdIngest pieces.flatten) s = .next u ∧
      resultsOf (repliesSince s t) = resultsOf (repliesSince s u) ∧
      ∀ later, t.cmdRx.length + later.length ≤ t.params.cmdRxCap → u.cmdRx.length + later.length ≤ u.params.cmdRxCap →
        ∃ t' u', exec (.cmdIngest later) t = .next t' ∧ exec (.cmdIngest later) u = .next u' ∧
          resultsOf (repliesSince t t') = resultsOf (repliesSince u u')

/-! Packets and messages by themselves. -/

/-- R47, R67, R172, R177, R186: the packet row is CMD_INGEST of the packet's bytes (log entry 5): refused where CMD_RX has no
room; into an empty CMD_RX, with its footer it is taken whole and judged, without it 2 bytes are taken and the search goes
on behind them. -/
def Obligations.PacketRowIsTheIngestOfThePacket : Prop :=
  ∀ (s : State) (region : List Byte) (f0 f1 : Byte), 2 ≤ region.length → region.length ≤ 65537 →
    (s.params.cmdRxCap < s.cmdRx.length + (region.length + 6) →
      exec (.cmdPacket region f0 f1) s = .next (s.reply .capacityExceeded)) ∧
    (s.cmdRx = [] → s.params.wf → f0 = 0xDC → f1 = 0xBA →
      exec (.cmdPacket region f0 f1) s = .next (s.reply (.fetches [
        packetResult s.params.crcEnforce ((xorByIndex s.params.xorKey region).take (region.length - 2))
          (le16At (xorByIndex s.params.xorKey region) (region.length - 2)), .needMore]))) ∧
    (s.cmdRx = [] → s.params.wf → ¬(f0 = 0xDC ∧ f1 = 0xBA) → ∃ t rs,
      exec (.cmdIngest []) (s.withCmdRx (littleBytes (region.length - 2) ++ region ++ [f0, f1])) = .next t ∧
      t.replies = s.replies ++ [.fetches rs] ∧
      exec (.cmdPacket region f0 f1) s = .next { t with replies := s.replies ++ [.fetches (.resync :: rs)] })

/-- R77, R182, R183: a message run by itself is handed over with its fields; nothing is acted on (log entry 6). -/
def Obligations.MessageRowsHandOverTheirFields : Prop :=
  ∀ (s : State) (type : Word) (tail : MsgTail),
    exec (.msgSessionInit tail) s = .next (s.reply (.message (fieldsOf 0x0514 tail)
      (viewSessionInit (fieldsOf 0x0514 tail).payload))) ∧
    exec (.msgSessionInfo tail) s = .next (s.reply (.message (fieldsOf 0x0515 tail)
      (viewSessionInfo (fieldsOf 0x0515 tail).payload))) ∧
    exec (.msgButtonEvent tail) s = .next (s.reply (.message (fieldsOf 0x0610 tail)
      (viewButtonEvent (fieldsOf 0x0610 tail).payload))) ∧
    exec (.msgButtonAck tail) s = .next (s.reply (.message (fieldsOf 0x0611 tail)
      (viewButtonAck (fieldsOf 0x0611 tail).payload))) ∧
    exec (.msgOther type tail) s = .next (s.reply (.message (fieldsOf type tail) none))

/-- R73 to R76: each payload layout, byte by byte. -/
def Obligations.PayloadsAreLaidOutAsTheirTypeSays : Prop :=
  ∀ (b0 b1 b2 b3 b4 b5 b6 b7 b8 b9 : Byte) (rest : List Byte),
    viewSessionInit [b0, b1, b2, b3] = some (.sessionInit (le32 b0 b1 b2 b3)) ∧
    viewSessionInfo ([b0, b1, b2, b3] ++ rest) = some (.sessionInfo (le32 b0 b1 b2 b3) rest) ∧
    viewButtonEvent [b0, b1, b2, b3, b4, b5, b6, b7, b8, b9] =
      some (.buttonEvent (le32 b0 b1 b2 b3) (le16 b4 b5) b6 b7 (le16 b8 b9)) ∧
    viewButtonAck [b0, b1, b2, b3] = some (.buttonAck (le16 b0 b1) b2 b3)

/-- R73 to R76: a payload made from a view's fields is read back as that view under the view's own type. -/
def Obligations.PayloadFieldsRoundTrip : Prop :=
  ∀ v : PayloadView,
    (viewType v = 0x0514 → viewSessionInit (payloadOf v) = some v ∧ (payloadOf v).length = 4) ∧
    (viewType v = 0x0515 → viewSessionInfo (payloadOf v) = some v ∧ 4 ≤ (payloadOf v).length) ∧
    (viewType v = 0x0610 → viewButtonEvent (payloadOf v) = some v ∧ (payloadOf v).length = 10) ∧
    (viewType v = 0x0611 → viewButtonAck (payloadOf v) = some v ∧ (payloadOf v).length = 4)

/-- R178 to R184: the packet of a message, fetched, carries the fields that the message's own row hands over (unless an
enforced CRC drops it; the two rows are log entries 5 and 6). -/
def Obligations.FetchedPacketCarriesItsMessageFields : Prop :=
  ∀ (s : State) (type : Word) (tail : MsgTail) (c0 c1 : Byte), tailFits tail = true → s.cmdRx = [] → s.params.wf →
    ∃ f v r, exec (messageInstr type tail) s = .next (s.reply (.message f v)) ∧
      exec (.cmdPacket (xorByIndex s.params.xorKey (messageBytes type tail ++ [c0, c1])) 0xDC 0xBA) s =
        .next (s.reply (.fetches [r, .needMore])) ∧
      r = if s.params.crcEnforce = true ∧ crc16 (messageBytes type tail) ≠ le16 c0 c1 then
            .malformedCrc (le16 c0 c1) (crc16 (messageBytes type tail))
          else
            .packet { type := f.type, plen := f.plen, body := f.body, payload := f.payload, crcRx := le16 c0 c1,
                      crcCalc := crc16 (messageBytes type tail),
                      crcOk := decide (crc16 (messageBytes type tail) = le16 c0 c1) }
end

