-- ==== Sys2Proof/Laws/State.lean ====
section
/-! SUPPORT. One lemma per field per update of State, and what the updates do to one another. -/

namespace Sys2Proof.Machine

@[simp] theorem State.withCrcReg_crcReg (s : State) (v : Word) : (s.withCrcReg v).crcReg = v := rfl
@[simp] theorem State.withCrcReg_bitmap (s : State) (v : Word) : (s.withCrcReg v).bitmap = s.bitmap := rfl
@[simp] theorem State.withCrcReg_dispRx (s : State) (v : Word) : (s.withCrcReg v).dispRx = s.dispRx := rfl
@[simp] theorem State.withCrcReg_cmdRx (s : State) (v : Word) : (s.withCrcReg v).cmdRx = s.cmdRx := rfl
@[simp] theorem State.withCrcReg_params (s : State) (v : Word) : (s.withCrcReg v).params = s.params := rfl
@[simp] theorem State.withCrcReg_inbox (s : State) (v : Word) : (s.withCrcReg v).inbox = s.inbox := rfl
@[simp] theorem State.withCrcReg_replies (s : State) (v : Word) : (s.withCrcReg v).replies = s.replies := rfl
@[simp] theorem State.withCrcReg_self (s : State) : s.withCrcReg s.crcReg = s := rfl
@[simp] theorem State.withCrcReg_withCrcReg (s : State) (v v2 : Word) : (s.withCrcReg v).withCrcReg v2 = s.withCrcReg v2 := rfl

@[simp] theorem State.withBitmap_crcReg (s : State) (m : Memory) : (s.withBitmap m).crcReg = s.crcReg := rfl
@[simp] theorem State.withBitmap_bitmap (s : State) (m : Memory) : (s.withBitmap m).bitmap = m := rfl
@[simp] theorem State.withBitmap_dispRx (s : State) (m : Memory) : (s.withBitmap m).dispRx = s.dispRx := rfl
@[simp] theorem State.withBitmap_cmdRx (s : State) (m : Memory) : (s.withBitmap m).cmdRx = s.cmdRx := rfl
@[simp] theorem State.withBitmap_params (s : State) (m : Memory) : (s.withBitmap m).params = s.params := rfl
@[simp] theorem State.withBitmap_inbox (s : State) (m : Memory) : (s.withBitmap m).inbox = s.inbox := rfl
@[simp] theorem State.withBitmap_replies (s : State) (m : Memory) : (s.withBitmap m).replies = s.replies := rfl
@[simp] theorem State.withBitmap_self (s : State) : s.withBitmap s.bitmap = s := rfl
@[simp] theorem State.withBitmap_withBitmap (s : State) (m m2 : Memory) : (s.withBitmap m).withBitmap m2 = s.withBitmap m2 := rfl

@[simp] theorem State.withDispRx_crcReg (s : State) (q : List Byte) : (s.withDispRx q).crcReg = s.crcReg := rfl
@[simp] theorem State.withDispRx_bitmap (s : State) (q : List Byte) : (s.withDispRx q).bitmap = s.bitmap := rfl
@[simp] theorem State.withDispRx_dispRx (s : State) (q : List Byte) : (s.withDispRx q).dispRx = q := rfl
@[simp] theorem State.withDispRx_cmdRx (s : State) (q : List Byte) : (s.withDispRx q).cmdRx = s.cmdRx := rfl
@[simp] theorem State.withDispRx_params (s : State) (q : List Byte) : (s.withDispRx q).params = s.params := rfl
@[simp] theorem State.withDispRx_inbox (s : State) (q : List Byte) : (s.withDispRx q).inbox = s.inbox := rfl
@[simp] theorem State.withDispRx_replies (s : State) (q : List Byte) : (s.withDispRx q).replies = s.replies := rfl
@[simp] theorem State.withDispRx_self (s : State) : s.withDispRx s.dispRx = s := rfl
@[simp] theorem State.withDispRx_withDispRx (s : State) (q q2 : List Byte) : (s.withDispRx q).withDispRx q2 = s.withDispRx q2 := rfl

@[simp] theorem State.withCmdRx_crcReg (s : State) (q : List Byte) : (s.withCmdRx q).crcReg = s.crcReg := rfl
@[simp] theorem State.withCmdRx_bitmap (s : State) (q : List Byte) : (s.withCmdRx q).bitmap = s.bitmap := rfl
@[simp] theorem State.withCmdRx_dispRx (s : State) (q : List Byte) : (s.withCmdRx q).dispRx = s.dispRx := rfl
@[simp] theorem State.withCmdRx_cmdRx (s : State) (q : List Byte) : (s.withCmdRx q).cmdRx = q := rfl
@[simp] theorem State.withCmdRx_params (s : State) (q : List Byte) : (s.withCmdRx q).params = s.params := rfl
@[simp] theorem State.withCmdRx_inbox (s : State) (q : List Byte) : (s.withCmdRx q).inbox = s.inbox := rfl
@[simp] theorem State.withCmdRx_replies (s : State) (q : List Byte) : (s.withCmdRx q).replies = s.replies := rfl
@[simp] theorem State.withCmdRx_self (s : State) : s.withCmdRx s.cmdRx = s := rfl
@[simp] theorem State.withCmdRx_withCmdRx (s : State) (q q2 : List Byte) : (s.withCmdRx q).withCmdRx q2 = s.withCmdRx q2 := rfl

@[simp] theorem State.withInbox_crcReg (s : State) (q : List Request) : (s.withInbox q).crcReg = s.crcReg := rfl
@[simp] theorem State.withInbox_bitmap (s : State) (q : List Request) : (s.withInbox q).bitmap = s.bitmap := rfl
@[simp] theorem State.withInbox_dispRx (s : State) (q : List Request) : (s.withInbox q).dispRx = s.dispRx := rfl
@[simp] theorem State.withInbox_cmdRx (s : State) (q : List Request) : (s.withInbox q).cmdRx = s.cmdRx := rfl
@[simp] theorem State.withInbox_params (s : State) (q : List Request) : (s.withInbox q).params = s.params := rfl
@[simp] theorem State.withInbox_inbox (s : State) (q : List Request) : (s.withInbox q).inbox = q := rfl
@[simp] theorem State.withInbox_replies (s : State) (q : List Request) : (s.withInbox q).replies = s.replies := rfl
@[simp] theorem State.withInbox_self (s : State) : s.withInbox s.inbox = s := rfl
@[simp] theorem State.withInbox_withInbox (s : State) (q q2 : List Request) : (s.withInbox q).withInbox q2 = s.withInbox q2 := rfl

@[simp] theorem State.reply_crcReg (s : State) (r : Reply) : (s.reply r).crcReg = s.crcReg := rfl
@[simp] theorem State.reply_bitmap (s : State) (r : Reply) : (s.reply r).bitmap = s.bitmap := rfl
@[simp] theorem State.reply_dispRx (s : State) (r : Reply) : (s.reply r).dispRx = s.dispRx := rfl
@[simp] theorem State.reply_cmdRx (s : State) (r : Reply) : (s.reply r).cmdRx = s.cmdRx := rfl
@[simp] theorem State.reply_params (s : State) (r : Reply) : (s.reply r).params = s.params := rfl
@[simp] theorem State.reply_inbox (s : State) (r : Reply) : (s.reply r).inbox = s.inbox := rfl
@[simp] theorem State.reply_replies (s : State) (r : Reply) : (s.reply r).replies = s.replies ++ [r] := rfl

@[simp] theorem State.refuse_eq (s : State) (r : Reply) : s.refuse r = .next (s.reply r) := rfl

@[simp] theorem State.resetWith_crcReg (p : Params) : (State.resetWith p).crcReg = 0 := rfl
@[simp] theorem State.resetWith_bitmap (p : Params) : (State.resetWith p).bitmap = [] := rfl
@[simp] theorem State.resetWith_dispRx (p : Params) : (State.resetWith p).dispRx = [] := rfl
@[simp] theorem State.resetWith_cmdRx (p : Params) : (State.resetWith p).cmdRx = [] := rfl
@[simp] theorem State.resetWith_params (p : Params) : (State.resetWith p).params = p := rfl
@[simp] theorem State.resetWith_inbox (p : Params) : (State.resetWith p).inbox = [] := rfl
@[simp] theorem State.resetWith_replies (p : Params) : (State.resetWith p).replies = [] := rfl

theorem State.reset_eq : State.reset = State.resetWith Config.params := rfl

/-- Replies are only added. -/
theorem State.repliesSince_reply (s : State) (r : Reply) : repliesSince s (s.reply r) = [r] := by
  simp [repliesSince]

end Sys2Proof.Machine
end

