-- ==== Sys2Proof/Laws/Operands.lean ====
section
/-! SUPPORT. The laws of assembled fields, byte positions and searches. -/

namespace Sys2Proof.Machine

/-! Fields and their bytes. -/

/-- `LE16` as a number. -/
theorem le16_toNat (b0 b1 : Byte) : (le16 b0 b1).toNat = b0.toNat + 256 * b1.toNat := by
  have := b0.isLt
  rw [le16, BitVec.toNat_append, ← Nat.shiftLeft_add_eq_or_of_lt this, Nat.shiftLeft_eq]
  omega

@[simp] theorem le16_lowByte_highByte (w : Word) : le16 (lowByte w) (highByte w) = w := by
  apply BitVec.eq_of_toNat_eq
  have := w.isLt
  rw [le16_toNat]
  simp only [lowByte, highByte, BitVec.extractLsb'_toNat, Nat.shiftRight_eq_div_pow]
  omega

@[simp] theorem be16_highByte_lowByte (w : Word) : be16 (highByte w) (lowByte w) = w := le16_lowByte_highByte w

@[simp] theorem lowByte_le16 (b0 b1 : Byte) : lowByte (le16 b0 b1) = b0 := by
  apply BitVec.eq_of_toNat_eq
  have := b0.isLt
  simp only [lowByte, BitVec.extractLsb'_toNat, le16_toNat, Nat.shiftRight_eq_div_pow]
  omega

@[simp] theorem highByte_le16 (b0 b1 : Byte) : highByte (le16 b0 b1) = b1 := by
  apply BitVec.eq_of_toNat_eq
  have := b0.isLt
  have := b1.isLt
  simp only [highByte, BitVec.extractLsb'_toNat, le16_toNat, Nat.shiftRight_eq_div_pow]
  omega

/-- `BE16` as a number. -/
theorem be16_toNat (b0 b1 : Byte) : (be16 b0 b1).toNat = 256 * b0.toNat + b1.toNat := by
  rw [show be16 b0 b1 = le16 b1 b0 from rfl, le16_toNat]
  omega

/-- `LE32` as a number. -/
theorem le32_toNat (b0 b1 b2 b3 : Byte) :
    (le32 b0 b1 b2 b3).toNat = b0.toNat + 256 * (b1.toNat + 256 * (b2.toNat + 256 * b3.toNat)) := by
  have h0 := b0.isLt
  have h1 := b1.isLt
  have h2 := b2.isLt
  simp only [le32, BitVec.toNat_append]
  rw [← Nat.shiftLeft_add_eq_or_of_lt h0, ← Nat.shiftLeft_add_eq_or_of_lt h1, ← Nat.shiftLeft_add_eq_or_of_lt h2]
  simp only [Nat.shiftLeft_eq]
  omega

/-- The four bytes of a u32 give it back. -/
theorem le32_of_bytes (w : DWord) :
    le32 (w.extractLsb' 0 8) (w.extractLsb' 8 8) (w.extractLsb' 16 8) (w.extractLsb' 24 8) = w := by
  apply BitVec.eq_of_toNat_eq
  have := w.isLt
  rw [le32_toNat]
  simp only [BitVec.extractLsb'_toNat, Nat.shiftRight_eq_div_pow]
  omega

@[simp] theorem le16Bytes_length (w : Word) : (le16Bytes w).length = 2 := rfl
@[simp] theorem be16Bytes_length (w : Word) : (be16Bytes w).length = 2 := rfl
@[simp] theorem le32Bytes_length (w : DWord) : (le32Bytes w).length = 4 := rfl

/-! Positions. -/

theorem byteOf_eq_getElem (s : List Byte) (i : Nat) (h : i < s.length) : byteOf s i = s[i] := by
  simp [byteOf, h]

theorem byteOf_append_left (s t : List Byte) (i : Nat) (h : i < s.length) : byteOf (s ++ t) i = byteOf s i := by
  simp [byteOf, List.getElem?_append_left h]

theorem byteOf_append_right (s t : List Byte) (i : Nat) (h : s.length ≤ i) :
    byteOf (s ++ t) i = byteOf t (i - s.length) := by
  simp [byteOf, List.getElem?_append_right h]

theorem byteOf_drop (s : List Byte) (k i : Nat) : byteOf (s.drop k) i = byteOf s (k + i) := by
  simp [byteOf, List.getElem?_drop]

@[simp] theorem byteOf_cons_zero (b : Byte) (s : List Byte) : byteOf (b :: s) 0 = b := rfl
@[simp] theorem byteOf_cons_succ (b : Byte) (s : List Byte) (i : Nat) : byteOf (b :: s) (i + 1) = byteOf s i := rfl

theorem slice_length (s : List Byte) (a b : Nat) (h : b ≤ s.length) : (slice s a b).length = b - a := by
  simp only [slice, List.length_take, List.length_drop]
  omega

/-- Cutting inside a prefix does not see what follows it. -/
theorem slice_append_left (s t : List Byte) (a b : Nat) (h : b ≤ s.length) : slice (s ++ t) a b = slice s a b := by
  by_cases ha : a ≤ b
  · simp only [slice]
    rw [List.drop_append_of_le_length (by omega), List.take_append_of_le_length (by simp; omega)]
  · simp [slice, show b - a = 0 by omega]

theorem keepLast_length (q : List Byte) (k : Nat) : (keepLast q k).length = min k q.length := by
  simp only [keepLast, List.length_drop]
  omega

/-! The search (00_scope.md §4). -/

theorem find2_cons (b0 b1 x y : Byte) (t : List Byte) :
    find2 b0 b1 (x :: y :: t) = if x = b0 ∧ y = b1 then some 0 else (find2 b0 b1 (y :: t)).map (· + 1) := rfl

/-- A search that answers `k`: the pair stands at `k`, and at no earlier index. -/
theorem find2_some {b0 b1 : Byte} {s : List Byte} {k : Nat} (h : find2 b0 b1 s = some k) :
    k + 1 < s.length ∧ byteOf s k = b0 ∧ byteOf s (k + 1) = b1 ∧
      ∀ j < k, ¬(byteOf s j = b0 ∧ byteOf s (j + 1) = b1) := by
  induction s generalizing k with
  | nil => simp [find2] at h
  | cons x t ih =>
    cases t with
    | nil => simp [find2] at h
    | cons y t =>
      rw [find2_cons] at h
      split at h
      · obtain rfl : 0 = k := by simpa using h
        rename_i hxy
        exact ⟨by simp, hxy.1, hxy.2, by omega⟩
      · rename_i hxy
        obtain ⟨m, hm, rfl⟩ : ∃ m, find2 b0 b1 (y :: t) = some m ∧ m + 1 = k := by simpa using h
        obtain ⟨h1, h2, h3, h4⟩ := ih hm
        refine ⟨by simpa using h1, h2, h3, fun j hj => ?_⟩
        cases j with
        | zero => exact hxy
        | succ j => exact h4 j (by omega)

/-- A search that answers none: the pair stands nowhere. -/
theorem find2_none {b0 b1 : Byte} {s : List Byte} (h : find2 b0 b1 s = none) :
    ∀ j, j + 1 < s.length → ¬(byteOf s j = b0 ∧ byteOf s (j + 1) = b1) := by
  induction s with
  | nil => simp
  | cons x t ih =>
    cases t with
    | nil => simp
    | cons y t =>
      rw [find2_cons] at h
      split at h
      · simp at h
      · rename_i hxy
        intro j hj
        cases j with
        | zero => exact hxy
        | succ j => exact ih (by simpa using h) j (by simpa using hj)

/-- The search answers the least index of the pair. -/
theorem find2_eq_some {b0 b1 : Byte} {s : List Byte} {k : Nat} (hk : k + 1 < s.length) (h0 : byteOf s k = b0)
    (h1 : byteOf s (k + 1) = b1) (hmin : ∀ j < k, ¬(byteOf s j = b0 ∧ byteOf s (j + 1) = b1)) :
    find2 b0 b1 s = some k := by
  cases h : find2 b0 b1 s with
  | none => exact absurd ⟨h0, h1⟩ (find2_none h k hk)
  | some m =>
    obtain ⟨_, m0, m1, mmin⟩ := find2_some h
    rcases Nat.lt_trichotomy k m with hlt | rfl | hlt
    · exact absurd ⟨h0, h1⟩ (mmin k hlt)
    · rfl
    · exact absurd ⟨m0, m1⟩ (hmin m hlt)

/-- The search answers none where the pair stands nowhere. -/
theorem find2_eq_none {b0 b1 : Byte} {s : List Byte}
    (h : ∀ j, j + 1 < s.length → ¬(byteOf s j = b0 ∧ byteOf s (j + 1) = b1)) : find2 b0 b1 s = none := by
  cases hf : find2 b0 b1 s with
  | none => rfl
  | some m =>
    obtain ⟨hm, m0, m1, _⟩ := find2_some hf
    exact absurd ⟨m0, m1⟩ (h m hm)

end Sys2Proof.Machine
end

