-- ==== Sys2Proof/Laws/Codec.lean ====
section
/-! SUPPORT. What XOR_APPLY and the CRC compute, element by element. -/

namespace Sys2Proof.Machine

@[simp] theorem xorFrom_length (key : Vector Byte 16) (i : Nat) (d : List Byte) : (xorFrom key i d).length = d.length := by
  induction d generalizing i with
  | nil => rfl
  | cons b t ih => simp [xorFrom, ih]

@[simp] theorem xorApply_length (key : Vector Byte 16) (d : List Byte) : (xorApply key d).length = d.length :=
  xorFrom_length key 0 d

/-- Byte `j` of a codec result. -/
theorem xorFrom_getElem? (key : Vector Byte 16) (i : Nat) (d : List Byte) (j : Nat) :
    (xorFrom key i d)[j]? = d[j]?.map (· ^^^ keyByte key (i + j)) := by
  induction d generalizing i j with
  | nil => simp [xorFrom]
  | cons b t ih =>
    cases j with
    | zero => simp [xorFrom]
    | succ j => simp [xorFrom, ih, show i + 1 + j = i + (j + 1) by omega]

theorem xorFrom_append (key : Vector Byte 16) (i : Nat) (d e : List Byte) :
    xorFrom key i (d ++ e) = xorFrom key i d ++ xorFrom key (i + d.length) e := by
  induction d generalizing i with
  | nil => simp [xorFrom]
  | cons b t ih => simp [xorFrom, ih, show i + 1 + t.length = i + (t.length + 1) by omega]

/-- The same start index twice restores the bytes. -/
theorem xorFrom_xorFrom (key : Vector Byte 16) (i : Nat) (d : List Byte) : xorFrom key i (xorFrom key i d) = d := by
  induction d generalizing i with
  | nil => rfl
  | cons b t ih => simp [xorFrom, ih]

/-- The key repeats every 16 bytes. -/
theorem keyByte_add (key : Vector Byte 16) (i n : Nat) (h : n % 16 = 0) : keyByte key (n + i) = keyByte key i := by
  have : (n + i) % 16 = i % 16 := by omega
  simp only [keyByte, this]

@[simp] theorem crc16_nil : crc16 [] = 0x0000#16 := rfl

theorem crc16_append_singleton (d : List Byte) (b : Byte) : crc16 (d ++ [b]) = crcUpdate (crc16 d) b := by
  simp [crc16, List.foldl_append]

end Sys2Proof.Machine
end

