-- ==== Sys2Proof/Laws/Decode.lean ====
section
/-! SUPPORT. What the parts of the decoder read from what the parts of the encoder write. -/

namespace Sys2Proof

open Machine

theorem encodeBytes_length (data : List Byte) : (encodeBytes data).length = 4 + data.length := by simp [encodeBytes]

theorem frameBytes_length (type : Byte) (payload : List Byte) : (frameBytes type payload).length = 5 + payload.length := by
  simp only [frameBytes, List.length_append, be16Bytes_length, List.length_cons, List.length_nil]

theorem packetBytes_length (region : List Byte) (foot0 foot1 : Byte) :
    (packetBytes region foot0 foot1).length = 6 + region.length := by
  simp only [packetBytes, List.length_append, le16Bytes_length, List.length_cons, List.length_nil]
  omega

/-- R91: a byte-sequence operand reads back, whatever follows it. -/
theorem decodeBytes_encodeBytes (data rest : List Byte) (h : data.length < 4294967296) :
    decodeBytes (encodeBytes data ++ rest) = .ok (data, rest) := by
  have e : (le32 ((BitVec.ofNat 32 data.length).extractLsb' 0 8) ((BitVec.ofNat 32 data.length).extractLsb' 8 8)
      ((BitVec.ofNat 32 data.length).extractLsb' 16 8) ((BitVec.ofNat 32 data.length).extractLsb' 24 8)).toNat =
        data.length := by
    rw [le32_of_bytes, BitVec.toNat_ofNat]
    omega
  simp [encodeBytes, le32Bytes, decodeBytes, e]

/-- R69, R182: what follows a type field reads back. -/
theorem decodeTail_tailBytes (t : MsgTail) : decodeTail (tailBytes t) = t := by
  rcases t with (_ | _) | _ <;> simp [tailBytes, decodeTail, le16Bytes]

/-- R63: a frame reads back, whatever follows it. -/
theorem decodeFrame_frameBytes (type : Byte) (payload rest : List Byte) (h : payload.length < 65536) :
    decodeFrame (frameBytes type payload ++ rest) = .ok (frameInstr type payload, rest) := by
  simp [frameBytes, be16Bytes, decodeFrame, dispMagic0, dispMagic1, Nat.mod_eq_of_lt h]

/-- R67: a packet reads back, whatever follows it. -/
theorem decodePacket_packetBytes (region rest : List Byte) (foot0 foot1 : Byte) (h2 : 2 ≤ region.length)
    (h : region.length ≤ 65537) :
    decodePacket (packetBytes region foot0 foot1 ++ rest) = .ok (.cmdPacket region foot0 foot1, rest) := by
  have e : (region.length - 2) % 65536 + 2 = region.length := by omega
  simp [packetBytes, le16Bytes, decodePacket, cmdHeader0, cmdHeader1, e]

/-- No format has an instruction of no bytes. -/
theorem decode_nil (f : Format) : decode f [] = .error (.truncated f) := by cases f <;> rfl

end Sys2Proof
end

