-- ==== Sys2Proof/Laws/Memory.lean ====
section
/-! SUPPORT. The laws of BITMAP: reading after writing, the canonical form, and copies. -/

namespace Sys2Proof.Machine

@[simp] theorem Memory.byteAt_nil (a : Nat) : Memory.byteAt [] a = unlistedByte := rfl

theorem Memory.byteAt_cons (k : Nat) (b : Byte) (m : Memory) (a : Nat) :
    Memory.byteAt ((k, b) :: m) a = if k = a then b else Memory.byteAt m a := rfl

/-- Looking past entries none of which is at the address. -/
theorem Memory.byteAt_append_of_not_mem (m n : Memory) (a : Nat) (h : ∀ c ∈ m, c.1 ≠ a) :
    Memory.byteAt (m ++ n) a = Memory.byteAt n a := by
  induction m with
  | nil => rfl
  | cons c m ih =>
    obtain ⟨k, b⟩ := c
    have hk : k ≠ a := h (k, b) (by simp)
    rw [List.cons_append, Memory.byteAt_cons, if_neg hk]
    exact ih fun c hc => h c (by simp [hc])

/-- An address with no entry reads as unlisted. -/
theorem Memory.byteAt_of_not_mem (m : Memory) (a : Nat) (h : ∀ c ∈ m, c.1 ≠ a) :
    Memory.byteAt m a = unlistedByte := by
  simpa using Memory.byteAt_append_of_not_mem m [] a h

/-- Entries that leave an address unlisted may follow any others. -/
theorem Memory.byteAt_append_of_unlisted (m n : Memory) (a : Nat) (h : Memory.byteAt n a = unlistedByte) :
    Memory.byteAt (m ++ n) a = Memory.byteAt m a := by
  induction m with
  | nil => simpa using h
  | cons c m ih =>
    obtain ⟨k, b⟩ := c
    simp [Memory.byteAt_cons, ih]

/-- Keeping the entries of some addresses keeps what those addresses read as. -/
theorem Memory.byteAt_filter_append (p : Nat → Bool) (m n : Memory) (a : Nat) (h : p a = true)
    (hn : Memory.byteAt n a = unlistedByte) :
    Memory.byteAt (m.filter (fun c => p c.1) ++ n) a = Memory.byteAt m a := by
  induction m with
  | nil => simpa using hn
  | cons c m ih =>
    obtain ⟨k, b⟩ := c
    by_cases hk : k = a
    · subst hk; simp [h, Memory.byteAt_cons]
    · by_cases hp : p k = true <;> simp [hp, Memory.byteAt_cons, hk, ih]

/-- The addresses of the entries of `v` placed from `a` on. -/
theorem Memory.mem_cells {a : Nat} {v : List Byte} {c : Host.Cell} (h : c ∈ Memory.cells a v) :
    a ≤ c.1 ∧ c.1 < a + v.length := by
  induction v generalizing a with
  | nil => simp [Memory.cells] at h
  | cons b t ih =>
    have ht : c ∈ Memory.cells (a + 1) t → a ≤ c.1 ∧ c.1 < a + (b :: t).length := fun h' => by
      have := ih h'
      simp only [List.length_cons]
      omega
    simp only [Memory.cells] at h
    split at h
    · exact ht h
    · rcases List.mem_cons.mp h with rfl | h'
      · simp
      · exact ht h'

/-- What the entries of `v` placed from `a` on read as. -/
theorem Memory.byteAt_cells (a : Nat) (v : List Byte) (x : Nat) :
    Memory.byteAt (Memory.cells a v) x = if a ≤ x ∧ x < a + v.length then byteOf v (x - a) else unlistedByte := by
  induction v generalizing a with
  | nil => simp [Memory.cells, byteOf]
  | cons b t ih =>
    by_cases hx : a = x
    · subst hx
      by_cases hb : b = unlistedByte
      · have hn : ¬(a + 1 ≤ a) := by omega
        simp [Memory.cells, hb, ih, byteOf]
      · simp [Memory.cells, hb, Memory.byteAt_cons, byteOf]
    · have hcells : Memory.byteAt (Memory.cells a (b :: t)) x = Memory.byteAt (Memory.cells (a + 1) t) x := by
        by_cases hb : b = unlistedByte <;> simp [Memory.cells, hb, Memory.byteAt_cons, hx]
      rw [hcells, ih]
      by_cases hr : a + 1 ≤ x ∧ x < a + 1 + t.length
      · have hr' : a ≤ x ∧ x < a + (b :: t).length := by simp only [List.length_cons]; omega
        rw [if_pos hr, if_pos hr']
        have : x - a = (x - (a + 1)) + 1 := by omega
        simp [byteOf, this]
      · have hr' : ¬(a ≤ x ∧ x < a + (b :: t).length) := by simp only [List.length_cons]; omega
        rw [if_neg hr, if_neg hr']

/-- R41: reading one byte after MemWrite. -/
theorem Memory.byteAt_write (m : Memory) (a : Nat) (v : List Byte) (x : Nat) :
    Memory.byteAt (m.write a v) x = if a ≤ x ∧ x < a + v.length then byteOf v (x - a) else Memory.byteAt m x := by
  have hlow : x ≥ a → ∀ c ∈ m.filter (fun c => decide (c.1 < a)), c.1 ≠ x := fun h c hc => by
    have := (List.mem_filter.mp hc).2
    simp only [decide_eq_true_eq] at this
    omega
  have hhigh : x < a + v.length → ∀ c ∈ m.filter (fun c => decide (a + v.length ≤ c.1)), c.1 ≠ x := fun h c hc => by
    have := (List.mem_filter.mp hc).2
    simp only [decide_eq_true_eq] at this
    omega
  unfold Memory.write
  rw [List.append_assoc]
  by_cases h : a ≤ x
  · rw [Memory.byteAt_append_of_not_mem _ _ _ (hlow h)]
    by_cases h2 : x < a + v.length
    · rw [if_pos ⟨h, h2⟩]
      have hz := Memory.byteAt_of_not_mem _ _ (hhigh h2)
      rw [Memory.byteAt_append_of_unlisted _ _ _ hz, Memory.byteAt_cells, if_pos ⟨h, h2⟩]
    · rw [if_neg (by omega), Memory.byteAt_append_of_not_mem]
      · simpa using Memory.byteAt_filter_append (fun k => decide (a + v.length ≤ k)) m [] x
          (by simp only [decide_eq_true_eq]; omega) rfl
      · intro c hc
        have := Memory.mem_cells hc
        omega
  · rw [if_neg (by omega)]
    refine Memory.byteAt_filter_append (fun k => decide (k < a)) m _ x (by simp only [decide_eq_true_eq]; omega) ?_
    refine Memory.byteAt_of_not_mem _ _ fun c hc => ?_
    rcases List.mem_append.mp hc with h' | h'
    · have := Memory.mem_cells h'
      omega
    · have := (List.mem_filter.mp h').2
      simp only [decide_eq_true_eq] at this
      omega

/-! The canonical form. -/

theorem Memory.wf_nil : Memory.wf [] = true := rfl

theorem Memory.wfFrom_cons (lo k : Nat) (b : Byte) (m : Memory) :
    Memory.wfFrom lo ((k, b) :: m) = true ↔
      lo ≤ k ∧ k < bitmapBytes ∧ b ≠ unlistedByte ∧ Memory.wfFrom (k + 1) m = true := by
  simp only [Memory.wfFrom, Bool.and_eq_true, decide_eq_true_eq]
  tauto

theorem Memory.wfFrom_mono {lo hi : Nat} {m : Memory} (h : Memory.wfFrom hi m = true) (hl : lo ≤ hi) :
    Memory.wfFrom lo m = true := by
  cases m with
  | nil => rfl
  | cons c m =>
    obtain ⟨k, b⟩ := c
    rw [Memory.wfFrom_cons] at *
    exact ⟨by omega, h.2⟩

/-- The addresses of a canonical memory. -/
theorem Memory.mem_of_wfFrom {lo : Nat} {m : Memory} (h : Memory.wfFrom lo m = true) {c : Host.Cell} (hc : c ∈ m) :
    lo ≤ c.1 ∧ c.1 < bitmapBytes := by
  induction m generalizing lo with
  | nil => simp at hc
  | cons d m ih =>
    obtain ⟨k, b⟩ := d
    rw [Memory.wfFrom_cons] at h
    rcases List.mem_cons.mp hc with rfl | hc'
    · exact ⟨h.1, h.2.1⟩
    · have := ih h.2.2.2 hc'
      omega

theorem Memory.wfFrom_filter {lo : Nat} {m : Memory} (p : Host.Cell → Bool) (h : Memory.wfFrom lo m = true) :
    Memory.wfFrom lo (m.filter p) = true := by
  induction m generalizing lo with
  | nil => rfl
  | cons c m ih =>
    obtain ⟨k, b⟩ := c
    rw [Memory.wfFrom_cons] at h
    by_cases hp : p (k, b) = true
    · simp only [List.filter_cons, hp, if_true]
      rw [Memory.wfFrom_cons]
      exact ⟨h.1, h.2.1, h.2.2.1, ih h.2.2.2⟩
    · simp only [List.filter_cons, hp]
      exact Memory.wfFrom_mono (ih h.2.2.2) (by omega)

/-- Keeping the entries at or above an address moves the bound up. -/
theorem Memory.wfFrom_filter_above {lo hi : Nat} {m : Memory} (h : Memory.wfFrom lo m = true) :
    Memory.wfFrom hi (m.filter (fun c => decide (hi ≤ c.1))) = true := by
  induction m generalizing lo with
  | nil => rfl
  | cons c m ih =>
    obtain ⟨k, b⟩ := c
    rw [Memory.wfFrom_cons] at h
    by_cases hp : hi ≤ k
    · simp only [List.filter_cons, hp, decide_true, if_true]
      rw [Memory.wfFrom_cons]
      exact ⟨hp, h.2.1, h.2.2.1, Memory.wfFrom_filter _ h.2.2.2⟩
    · simp only [List.filter_cons, hp, decide_false]
      exact ih h.2.2.2

/-- Two canonical memories, the second wholly above the first. -/
theorem Memory.wfFrom_append {lo mid : Nat} {m n : Memory} (hm : Memory.wfFrom lo m = true)
    (hb : ∀ c ∈ m, c.1 < mid) (hl : lo ≤ mid) (hn : Memory.wfFrom mid n = true) : Memory.wfFrom lo (m ++ n) = true := by
  induction m generalizing lo with
  | nil => exact Memory.wfFrom_mono hn hl
  | cons c m ih =>
    obtain ⟨k, b⟩ := c
    rw [Memory.wfFrom_cons] at hm
    have hk : k < mid := hb (k, b) (by simp)
    rw [List.cons_append, Memory.wfFrom_cons]
    exact ⟨hm.1, hm.2.1, hm.2.2.1, ih hm.2.2.2 (fun c hc => hb c (by simp [hc])) (by omega)⟩

theorem Memory.cells_wfFrom (a : Nat) (v : List Byte) (h : a + v.length ≤ bitmapBytes) :
    Memory.wfFrom a (Memory.cells a v) = true := by
  induction v generalizing a with
  | nil => rfl
  | cons b t ih =>
    simp only [List.length_cons] at h
    have ht := ih (a + 1) (by omega)
    simp only [Memory.cells]
    split
    · exact Memory.wfFrom_mono ht (by omega)
    · rw [Memory.wfFrom_cons]
      exact ⟨le_refl _, by omega, by assumption, ht⟩

/-- R41: MemWrite inside BITMAP keeps the canonical form. -/
theorem Memory.write_wf {m : Memory} (a : Nat) (v : List Byte) (hm : m.wf = true) (h : a + v.length ≤ bitmapBytes) :
    (m.write a v).wf = true := by
  unfold Memory.wf Memory.write at *
  rw [List.append_assoc]
  refine Memory.wfFrom_append (mid := a) (Memory.wfFrom_filter _ hm) ?_ (by omega) ?_
  · intro c hc
    simpa using (List.mem_filter.mp hc).2
  · refine Memory.wfFrom_append (mid := a + v.length) (Memory.cells_wfFrom a v h) ?_ (by omega) ?_
    · intro c hc
      exact (Memory.mem_cells hc).2
    · exact Memory.wfFrom_filter_above hm

/-! Copies. -/

@[simp] theorem Memory.readFrom_length (n a : Nat) (m : Memory) : (Memory.readFrom n a m).length = n := by
  induction n generalizing a m with
  | zero => rfl
  | succ n ih =>
    rcases m with _ | ⟨⟨k, b⟩, t⟩
    · simp [Memory.readFrom, ih]
    · by_cases hk : k = a <;> simp [Memory.readFrom, hk, ih]

@[simp] theorem Memory.read_length (m : Memory) (a n : Nat) : (m.read a n).length = n := by simp [Memory.read]

/-- R147: a copy has exactly 1024 bytes. -/
@[simp] theorem Memory.copy_length (m : Memory) : m.copy.length = 1024 := by simp [Memory.copy, bitmapBytes]

theorem Memory.readFrom_eq {n a : Nat} {m : Memory} (h : Memory.wfFrom a m = true) :
    Memory.readFrom n a m = (List.range' a n).map m.byteAt := by
  induction n generalizing a m with
  | zero => rfl
  | succ n ih =>
    rcases m with _ | ⟨⟨k, b⟩, t⟩
    · simp [Memory.readFrom, ih (m := []) rfl, List.range'_succ]
    · rw [Memory.wfFrom_cons] at h
      by_cases hk : k = a
      · subst hk
        simp only [Memory.readFrom, if_true, List.range'_succ, List.map_cons, ih h.2.2.2, Memory.byteAt_cons]
        congr 1
        refine List.map_congr_left fun x hx => ?_
        have : k + 1 ≤ x := (List.mem_range'_1.mp hx).1
        rw [Memory.byteAt_cons, if_neg (by omega)]
      · have hge : Memory.wfFrom (a + 1) ((k, b) :: t) = true := by
          rw [Memory.wfFrom_cons]
          exact ⟨by omega, h.2⟩
        have ha : Memory.byteAt ((k, b) :: t) a = unlistedByte := by
          refine Memory.byteAt_of_not_mem _ _ fun c hc => ?_
          have := (Memory.mem_of_wfFrom hge hc).1
          omega
        simp only [Memory.readFrom, hk, if_false, ih hge, List.range'_succ, List.map_cons, ha]

/-- R41: MemRead of a canonical memory gives the bytes one by one. -/
theorem Memory.read_eq {m : Memory} (h : m.wf = true) (a n : Nat) : m.read a n = (List.range' a n).map m.byteAt := by
  unfold Memory.read
  rw [Memory.readFrom_eq (Memory.wfFrom_filter_above h)]
  refine List.map_congr_left fun x hx => ?_
  have : a ≤ x := (List.mem_range'_1.mp hx).1
  simpa using Memory.byteAt_filter_append (fun k => decide (a ≤ k)) m [] x (by simpa using this) rfl

/-- Byte `a` of a copy of a canonical memory. -/
theorem Memory.copy_getElem? {m : Memory} (h : m.wf = true) {a : Nat} (ha : a < 1024) :
    m.copy[a]? = some (m.byteAt a) := by
  unfold Memory.copy
  rw [Memory.read_eq h]
  simp [bitmapBytes, ha]

end Sys2Proof.Machine
end

