-- ==== Sys2Proof/Laws/Display.lean ====
section
/-! SUPPORT. What one pass of the display parser can do, and that its fuel never runs out. -/

namespace Sys2Proof.Machine

/-- R135 to R137: what a buffer that begins with a header gives. -/
theorem dispExtract_cases (rx : List Byte) :
    (dispExtract rx = .stop rx ∧ (rx.length < 5 ∨ rx.length < 5 + (be16At rx 3).toNat)) ∨
    (dispExtract rx = .frame (byteOf rx 2) (slice rx 5 (5 + (be16At rx 3).toNat)) (rx.drop (5 + (be16At rx 3).toNat)) ∧
      5 + (be16At rx 3).toNat ≤ rx.length) := by
  unfold dispExtract
  by_cases h1 : rx.length < 5
  · simp [h1]
  · by_cases h2 : rx.length < 5 + (be16At rx 3).toNat
    · simp [h1, h2]
    · rw [if_neg h1]
      exact .inr ⟨if_neg h2, by omega⟩

/-- R132 to R137: everything one pass can do. -/
theorem dispPass_cases (rx : List Byte) :
    (rx.length < 5 ∧ dispPass rx = .stop rx) ∨
    (5 ≤ rx.length ∧ find2 dispMagic0 dispMagic1 rx = none ∧ dispPass rx = .stop (keepLast rx 1)) ∨
    (∃ k, 5 ≤ rx.length ∧ find2 dispMagic0 dispMagic1 rx = some k ∧ dispPass rx = dispExtract (rx.drop k)) := by
  unfold dispPass
  by_cases h1 : rx.length < 5
  · simp [h1]
  · cases h : find2 dispMagic0 dispMagic1 rx with
    | none => simp [h1]; omega
    | some k => simp [h1]; omega

/-- R150: a pass that takes a frame removes at least 5 bytes. -/
theorem dispPass_frame_length {rx : List Byte} {type : Byte} {payload rest : List Byte}
    (h : dispPass rx = .frame type payload rest) : rest.length + 5 ≤ rx.length := by
  rcases dispPass_cases rx with ⟨_, h'⟩ | ⟨_, _, h'⟩ | ⟨k, _, _, h'⟩
  · simp [h'] at h
  · simp [h'] at h
  · rw [h'] at h
    rcases dispExtract_cases (rx.drop k) with ⟨he, _⟩ | ⟨he, hl⟩
    · simp [he] at h
    · rw [he] at h
      injection h with _ _ hr
      subst hr
      simp only [List.length_drop] at hl ⊢
      omega

/-- The loop, one pass at a time. -/
theorem dispLoop_succ (fuel : Nat) (rx : List Byte) (m : Memory) :
    dispLoop (fuel + 1) rx m =
      match dispPass rx with
      | .stop rx' => { rx := rx', bitmap := m, events := [] }
      | .frame type payload rest =>
        { dispLoop fuel rest (handleFrame type payload m).bitmap with
          events := (handleFrame type payload m).event ::
            (dispLoop fuel rest (handleFrame type payload m).bitmap).events } := by
  cases h : dispPass rx <;> simp only [dispLoop, h]

/-- More fuel than bytes changes nothing. -/
theorem dispLoop_fuel (f g : Nat) (rx : List Byte) (m : Memory) (hf : rx.length < f) (hg : rx.length < g) :
    dispLoop f rx m = dispLoop g rx m := by
  induction f generalizing g rx m with
  | zero => omega
  | succ f ih =>
    cases g with
    | zero => omega
    | succ g =>
      rw [dispLoop_succ, dispLoop_succ]
      cases hp : dispPass rx with
      | stop rx' => rfl
      | frame type payload rest =>
        have := dispPass_frame_length hp
        simp only [ih g rest (handleFrame type payload m).bitmap (by omega) (by omega)]

/-- R131: the whole loop, unfolded by one pass: it returns, or handles one frame and goes on. -/
theorem dispDrain_eq (rx : List Byte) (m : Memory) :
    dispDrain rx m =
      match dispPass rx with
      | .stop rx' => { rx := rx', bitmap := m, events := [] }
      | .frame type payload rest =>
        { dispDrain rest (handleFrame type payload m).bitmap with
          events := (handleFrame type payload m).event ::
            (dispDrain rest (handleFrame type payload m).bitmap).events } := by
  unfold dispDrain
  rw [dispLoop_succ]
  cases hp : dispPass rx with
  | stop rx' => rfl
  | frame type payload rest =>
    have := dispPass_frame_length hp
    simp only [dispLoop_fuel rx.length (rest.length + 1) rest (handleFrame type payload m).bitmap (by omega) (by omega)]

/-- Frames are taken one after another until a pass returns: an induction over the buffer. -/
theorem dispDrain_induction {P : List Byte → Memory → Prop}
    (stop : ∀ rx m rx', dispPass rx = .stop rx' → P rx m)
    (frame : ∀ rx m type payload rest, dispPass rx = .frame type payload rest →
      P rest (handleFrame type payload m).bitmap → P rx m) (rx : List Byte) (m : Memory) : P rx m := by
  induction hn : rx.length using Nat.strong_induction_on generalizing rx m with
  | _ n ih =>
    cases hp : dispPass rx with
    | stop rx' => exact stop rx m rx' hp
    | frame type payload rest =>
      have := dispPass_frame_length hp
      exact frame rx m type payload rest hp (ih rest.length (by omega) rest _ rfl)

/-- R141 to R143: applying chunks inside BITMAP keeps the canonical form. -/
theorem applyChunks_wf (n : Nat) (payload : List Byte) {m : Memory} (h : m.wf = true) :
    (applyChunks n payload m).wf = true := by
  induction n generalizing payload m with
  | zero => exact h
  | succ n ih =>
    unfold applyChunks
    dsimp only
    split
    · refine ih _ (Memory.write_wf _ _ h ?_)
      simp only [slice, chunkLen, blockLen, bitmapBytes, List.length_take]
      omega
    · exact h

/-- R140 to R145: handling any frame keeps the canonical form. -/
theorem handleFrame_wf (type : Byte) (payload : List Byte) {m : Memory} (h : m.wf = true) :
    (handleFrame type payload m).bitmap.wf = true := by
  unfold handleFrame
  cases hc : frameClass type payload.length with
  | screenshot =>
    have hl : payload.length = bitmapBytes := by
      unfold frameClass at hc
      split at hc
      · rename_i hx
        exact hx.2
      · split at hc <;> simp at hc
    exact Memory.write_wf _ _ h (by omega)
  | diff => exact applyChunks_wf _ _ h
  | unknown => exact h

/-- The whole loop keeps the canonical form. -/
theorem dispDrain_wf (rx : List Byte) {m : Memory} (h : m.wf = true) : (dispDrain rx m).bitmap.wf = true := by
  induction rx, m using dispDrain_induction with
  | stop rx m rx' hp => rw [dispDrain_eq, hp]; exact h
  | frame rx m type payload rest hp ih => rw [dispDrain_eq, hp]; exact ih (handleFrame_wf _ _ h)

/-- A pass that returns never leaves more than it had. -/
theorem dispPass_stop_length {rx rx' : List Byte} (h : dispPass rx = .stop rx') : rx'.length ≤ rx.length := by
  rcases dispPass_cases rx with ⟨_, h'⟩ | ⟨_, _, h'⟩ | ⟨k, _, _, h'⟩
  · rw [h'] at h
    injection h with hr
    simp [hr]
  · rw [h'] at h
    injection h with hr
    rw [← hr, keepLast_length]
    omega
  · rw [h'] at h
    rcases dispExtract_cases (rx.drop k) with ⟨he, _⟩ | ⟨he, _⟩
    · rw [he] at h
      injection h with hr
      rw [← hr, List.length_drop]
      omega
    · simp [he] at h

/-- The whole loop never leaves more than it had. -/
theorem dispDrain_length (rx : List Byte) (m : Memory) : (dispDrain rx m).rx.length ≤ rx.length := by
  induction rx, m using dispDrain_induction with
  | stop rx m rx' hp => rw [dispDrain_eq, hp]; exact dispPass_stop_length hp
  | frame rx m type payload rest hp ih =>
    rw [dispDrain_eq, hp]
    have := dispPass_frame_length hp
    simp only
    omega

/-- R47, R130: everything DISP_INGEST can do to the whole state. -/
theorem execDispIngest_cases (data : List Byte) (s : State) :
    (s.params.dispRxCap < s.dispRx.length + data.length ∧ execDispIngest data s = .next (s.reply .capacityExceeded)) ∨
    (s.dispRx.length + data.length ≤ s.params.dispRxCap ∧
      execDispIngest data s =
        .next (((s.withDispRx (dispDrain (s.dispRx ++ data) s.bitmap).rx).withBitmap
          (dispDrain (s.dispRx ++ data) s.bitmap).bitmap).reply (.events (dispDrain (s.dispRx ++ data) s.bitmap).events))) := by
  unfold execDispIngest
  by_cases h : s.params.dispRxCap < s.dispRx.length + data.length
  · exact .inl ⟨h, if_pos h⟩
  · exact .inr ⟨by omega, if_neg h⟩

end Sys2Proof.Machine
end

