-- ==== Sys2Proof/Laws/Framer.lean ====
section
/-! SUPPORT. What one decode attempt can do, and that CMD_INGEST's fuel never runs out. -/

namespace Sys2Proof.Machine

/-- A region is opened to something other than `NeedMore`. -/
theorem openRegion_ne_needMore (p : Params) (n : Word) (r : List Byte) : openRegion p n r ≠ .needMore := by
  unfold openRegion judgeMessage
  dsimp only
  split
  · simp
  · split <;> simp

/-- R175 to R184: what a buffer that begins with a header gives. -/
theorem pktExtract_cases (p : Params) (rx : List Byte) :
    (pktExtract p rx = { result := .needMore, rx := rx } ∧ (rx.length < 8 ∨ rx.length < 8 + (le16At rx 2).toNat)) ∨
    (8 + (le16At rx 2).toNat ≤ rx.length ∧
      (byteOf rx (6 + (le16At rx 2).toNat) ≠ cmdFooter0 ∨ byteOf rx (7 + (le16At rx 2).toNat) ≠ cmdFooter1) ∧
      pktExtract p rx = { result := .resync, rx := rx.drop 2 }) ∨
    (8 + (le16At rx 2).toNat ≤ rx.length ∧
      byteOf rx (6 + (le16At rx 2).toNat) = cmdFooter0 ∧ byteOf rx (7 + (le16At rx 2).toNat) = cmdFooter1 ∧
      pktExtract p rx = { result := openRegion p (le16At rx 2) (slice rx 4 (6 + (le16At rx 2).toNat)),
                          rx := rx.drop (8 + (le16At rx 2).toNat) }) := by
  have e1 : 6 + (le16At rx 2).toNat + 1 = 7 + (le16At rx 2).toNat := by omega
  have e2 : 6 + (le16At rx 2).toNat + 2 = 8 + (le16At rx 2).toNat := by omega
  unfold pktExtract
  simp only [e1, e2]
  by_cases h1 : rx.length < 8
  · simp [h1]
  · by_cases h2 : rx.length < 8 + (le16At rx 2).toNat
    · simp [h1, h2]
    · by_cases h3 : byteOf rx (6 + (le16At rx 2).toNat) ≠ cmdFooter0 ∨ byteOf rx (7 + (le16At rx 2).toNat) ≠ cmdFooter1
      · simp only [h1, h2, h3, if_false, if_true]
        exact .inr (.inl ⟨by omega, trivial, trivial⟩)
      · have h4 := not_or.mp h3
        simp only [ne_eq, not_not] at h4
        simp only [h1, h2, h3, if_false]
        exact .inr (.inr ⟨by omega, h4.1, h4.2, trivial⟩)

/-- R173 to R184: everything one decode attempt can do. -/
theorem fetchPacket_cases (p : Params) (rx : List Byte) :
    (rx.length < 8 ∧ fetchPacket p rx = { result := .needMore, rx := rx }) ∨
    (8 ≤ rx.length ∧ find2 cmdHeader0 cmdHeader1 rx = none ∧
      fetchPacket p rx = { result := .needMore, rx := partialHeader rx }) ∨
    (∃ k, 8 ≤ rx.length ∧ find2 cmdHeader0 cmdHeader1 rx = some k ∧ fetchPacket p rx = pktExtract p (rx.drop k)) := by
  unfold fetchPacket
  by_cases h1 : rx.length < 8
  · simp [h1]
  · cases h : find2 cmdHeader0 cmdHeader1 rx with
    | none => simp [h1]; omega
    | some k => simp [h1]; omega

theorem partialHeader_length (rx : List Byte) : (partialHeader rx).length ≤ rx.length := by
  unfold partialHeader
  split
  · rw [keepLast_length]
    omega
  · simp

/-- No attempt leaves more bytes than it had. -/
theorem fetchPacket_length (p : Params) (rx : List Byte) : (fetchPacket p rx).rx.length ≤ rx.length := by
  rcases fetchPacket_cases p rx with ⟨_, h⟩ | ⟨_, _, h⟩ | ⟨k, _, _, h⟩
  · simp [h]
  · rw [h]
    exact partialHeader_length rx
  · rw [h]
    rcases pktExtract_cases p (rx.drop k) with ⟨he, _⟩ | ⟨_, _, he⟩ | ⟨_, _, _, he⟩ <;>
      · rw [he]
        simp only [List.length_drop]
        omega

/-- R187: a result other than `NeedMore` takes at least 2 bytes. -/
theorem fetchPacket_consumes {p : Params} {rx : List Byte} (h : (fetchPacket p rx).result ≠ .needMore) :
    (fetchPacket p rx).rx.length + 2 ≤ rx.length := by
  rcases fetchPacket_cases p rx with ⟨_, hf⟩ | ⟨_, _, hf⟩ | ⟨k, _, _, hf⟩
  · simp [hf] at h
  · simp [hf] at h
  · rw [hf] at h ⊢
    rcases pktExtract_cases p (rx.drop k) with ⟨he, _⟩ | ⟨hl, _, he⟩ | ⟨hl, _, _, he⟩
    · simp [he] at h
    · rw [he]
      simp only [List.length_drop] at hl ⊢
      omega
    · rw [he]
      simp only [List.length_drop] at hl ⊢
      omega

/-- The loop, one attempt at a time. -/
theorem cmdLoop_succ (p : Params) (fuel : Nat) (rx : List Byte) :
    cmdLoop p (fuel + 1) rx =
      if (fetchPacket p rx).result = .needMore then { rx := (fetchPacket p rx).rx, results := [.needMore] }
      else { cmdLoop p fuel (fetchPacket p rx).rx with
             results := (fetchPacket p rx).result :: (cmdLoop p fuel (fetchPacket p rx).rx).results } := by
  rw [cmdLoop]

/-- More fuel than bytes changes nothing. -/
theorem cmdLoop_fuel (p : Params) (f g : Nat) (rx : List Byte) (hf : rx.length < f) (hg : rx.length < g) :
    cmdLoop p f rx = cmdLoop p g rx := by
  induction f generalizing g rx with
  | zero => omega
  | succ f ih =>
    cases g with
    | zero => omega
    | succ g =>
      rw [cmdLoop_succ, cmdLoop_succ]
      by_cases h : (fetchPacket p rx).result = .needMore
      · simp [h]
      · have := fetchPacket_consumes h
        simp only [h, if_false, ih g (fetchPacket p rx).rx (by omega) (by omega)]

/-- R186: the whole loop, unfolded by one attempt. -/
theorem cmdDrain_eq (p : Params) (rx : List Byte) :
    cmdDrain p rx =
      if (fetchPacket p rx).result = .needMore then { rx := (fetchPacket p rx).rx, results := [.needMore] }
      else { cmdDrain p (fetchPacket p rx).rx with
             results := (fetchPacket p rx).result :: (cmdDrain p (fetchPacket p rx).rx).results } := by
  unfold cmdDrain
  rw [cmdLoop_succ]
  by_cases h : (fetchPacket p rx).result = .needMore
  · simp [h]
  · have := fetchPacket_consumes h
    simp only [h, if_false, cmdLoop_fuel p rx.length ((fetchPacket p rx).rx.length + 1) (fetchPacket p rx).rx
      (by omega) (by omega)]

/-- Attempts follow one another until `NeedMore`: an induction over the buffer. -/
theorem cmdDrain_induction {P : List Byte → Prop} (p : Params)
    (stop : ∀ rx, (fetchPacket p rx).result = .needMore → P rx)
    (go : ∀ rx, (fetchPacket p rx).result ≠ .needMore → P (fetchPacket p rx).rx → P rx) (rx : List Byte) : P rx := by
  induction hn : rx.length using Nat.strong_induction_on generalizing rx with
  | _ n ih =>
    by_cases h : (fetchPacket p rx).result = .needMore
    · exact stop rx h
    · have := fetchPacket_consumes h
      exact go rx h (ih _ (by omega) _ rfl)

/-- The whole loop never leaves more than it had. -/
theorem cmdDrain_length (p : Params) (rx : List Byte) : (cmdDrain p rx).rx.length ≤ rx.length := by
  induction rx using cmdDrain_induction p with
  | stop rx h =>
    rw [cmdDrain_eq, if_pos h]
    exact fetchPacket_length p rx
  | go rx h ih =>
    rw [cmdDrain_eq, if_neg h]
    have := fetchPacket_consumes h
    simp only
    omega

/-- R47, R186: everything CMD_INGEST can do to the whole state. -/
theorem execCmdIngest_cases (data : List Byte) (s : State) :
    (s.params.cmdRxCap < s.cmdRx.length + data.length ∧ execCmdIngest data s = .next (s.reply .capacityExceeded)) ∨
    (s.cmdRx.length + data.length ≤ s.params.cmdRxCap ∧
      execCmdIngest data s =
        .next ((s.withCmdRx (cmdDrain s.params (s.cmdRx ++ data)).rx).reply
          (.fetches (cmdDrain s.params (s.cmdRx ++ data)).results))) := by
  unfold execCmdIngest
  by_cases h : s.params.cmdRxCap < s.cmdRx.length + data.length
  · exact .inl ⟨h, if_pos h⟩
  · exact .inr ⟨by omega, if_neg h⟩

end Sys2Proof.Machine
end

