-- ==== Sys2Proof/Laws/PerInstr.lean ====
section
/-! SUPPORT. Statements made of every instruction, one lemma per constructor: the length of its encoding, from the field
tables of 30_encoding.md. -/

namespace Sys2Proof.Laws

open Machine

/-- The bytes of what follows a type field (R69, R182). -/
def tailLength : MsgTail → Nat
  | .short none => 0
  | .short (some _) => 1
  | .full _ body => 2 + body.length

theorem tailBytes_length (t : MsgTail) : (tailBytes t).length = tailLength t := by
  rcases t with (_ | _) | _ <;> simp [tailBytes, tailLength]

theorem messageBytes_length (type : Word) (t : MsgTail) : (messageBytes type t).length = 2 + tailLength t := by
  simp [messageBytes, tailBytes_length]

/-- How long an encoded instruction is (R63, R66, R67, R69, R89, R91). -/
def encodedLength : Instr → Nat
  | .xorApply data => 5 + data.length
  | .crcInit => 1
  | .crcByte _ => 2
  | .crcRead => 1
  | .crc16 data => 5 + data.length
  | .dispIngest data => 5 + data.length
  | .dispPixel _ _ => 3
  | .dispRead => 1
  | .pktBuild _ payload => 7 + payload.length
  | .pktFetch => 1
  | .cmdIngest data => 5 + data.length
  | .reset => 1
  | .dispScreenshot payload => 5 + payload.length
  | .dispDiff payload => 5 + payload.length
  | .dispUnknown _ payload => 5 + payload.length
  | .diffChunk _ data => 1 + data.length
  | .diffStop _ unused => 1 + unused.length
  | .cmdPacket region _ _ => 6 + region.length
  | .msgSessionInit tail => 2 + tailLength tail
  | .msgSessionInfo tail => 2 + tailLength tail
  | .msgButtonEvent tail => 2 + tailLength tail
  | .msgButtonAck tail => 2 + tailLength tail
  | .msgOther _ tail => 2 + tailLength tail
  | .keepalive => 4

/-- The encoding has the length that the field tables give it. -/
def EncodedLength.Statement (i : Instr) : Prop := (encode i).length = encodedLength i

theorem EncodedLength.xorApply (data : List Byte) : EncodedLength.Statement (.xorApply data) := by
  simp only [EncodedLength.Statement, encode, encodedLength, List.length_cons, encodeBytes_length]
  omega

theorem EncodedLength.crcInit : EncodedLength.Statement .crcInit := rfl

theorem EncodedLength.crcByte (b : Byte) : EncodedLength.Statement (.crcByte b) := rfl

theorem EncodedLength.crcRead : EncodedLength.Statement .crcRead := rfl

theorem EncodedLength.crc16 (data : List Byte) : EncodedLength.Statement (.crc16 data) := by
  simp only [EncodedLength.Statement, encode, encodedLength, List.length_cons, encodeBytes_length]
  omega

theorem EncodedLength.dispIngest (data : List Byte) : EncodedLength.Statement (.dispIngest data) := by
  simp only [EncodedLength.Statement, encode, encodedLength, List.length_cons, encodeBytes_length]
  omega

theorem EncodedLength.dispPixel (x : Byte) (y : Byte) : EncodedLength.Statement (.dispPixel x y) := rfl

theorem EncodedLength.dispRead : EncodedLength.Statement .dispRead := rfl

theorem EncodedLength.pktBuild (type : Word) (payload : List Byte) : EncodedLength.Statement (.pktBuild type payload) := by
  simp only [EncodedLength.Statement, encode, encodedLength, List.length_cons, List.length_append, le16Bytes_length, encodeBytes_length]
  omega

theorem EncodedLength.pktFetch : EncodedLength.Statement .pktFetch := rfl

theorem EncodedLength.cmdIngest (data : List Byte) : EncodedLength.Statement (.cmdIngest data) := by
  simp only [EncodedLength.Statement, encode, encodedLength, List.length_cons, encodeBytes_length]
  omega

theorem EncodedLength.reset : EncodedLength.Statement .reset := rfl

theorem EncodedLength.dispScreenshot (payload : List Byte) : EncodedLength.Statement (.dispScreenshot payload) := by
  simp only [EncodedLength.Statement, encode, encodedLength, frameBytes_length]

theorem EncodedLength.dispDiff (payload : List Byte) : EncodedLength.Statement (.dispDiff payload) := by
  simp only [EncodedLength.Statement, encode, encodedLength, frameBytes_length]

theorem EncodedLength.dispUnknown (type : Byte) (payload : List Byte) : EncodedLength.Statement (.dispUnknown type payload) := by
  simp only [EncodedLength.Statement, encode, encodedLength, frameBytes_length]

theorem EncodedLength.diffChunk (block : BitVec 7) (data : List Byte) : EncodedLength.Statement (.diffChunk block data) := by
  simp only [EncodedLength.Statement, encode, encodedLength, chunkBytes, List.length_cons]
  omega

theorem EncodedLength.diffStop (block : BitVec 7) (unused : List Byte) : EncodedLength.Statement (.diffStop block unused) := by
  simp only [EncodedLength.Statement, encode, encodedLength, chunkBytes, List.length_cons]
  omega

theorem EncodedLength.cmdPacket (region : List Byte) (foot0 : Byte) (foot1 : Byte) : EncodedLength.Statement (.cmdPacket region foot0 foot1) := by
  simp only [EncodedLength.Statement, encode, encodedLength, packetBytes_length]

theorem EncodedLength.msgSessionInit (tail : MsgTail) : EncodedLength.Statement (.msgSessionInit tail) := by
  simp only [EncodedLength.Statement, encode, encodedLength, messageBytes_length]

theorem EncodedLength.msgSessionInfo (tail : MsgTail) : EncodedLength.Statement (.msgSessionInfo tail) := by
  simp only [EncodedLength.Statement, encode, encodedLength, messageBytes_length]

theorem EncodedLength.msgButtonEvent (tail : MsgTail) : EncodedLength.Statement (.msgButtonEvent tail) := by
  simp only [EncodedLength.Statement, encode, encodedLength, messageBytes_length]

theorem EncodedLength.msgButtonAck (tail : MsgTail) : EncodedLength.Statement (.msgButtonAck tail) := by
  simp only [EncodedLength.Statement, encode, encodedLength, messageBytes_length]

theorem EncodedLength.msgOther (type : Word) (tail : MsgTail) : EncodedLength.Statement (.msgOther type tail) := by
  simp only [EncodedLength.Statement, encode, encodedLength, messageBytes_length]

theorem EncodedLength.keepalive : EncodedLength.Statement .keepalive := rfl

end Sys2Proof.Laws
end

