-- ==== Sys2Proof/Laws/Wire.lean ====
section
/-! SUPPORT. What the shared operations of the wire rows and of PKT_FETCH do to the whole state. -/

namespace Sys2Proof.Machine

@[simp] theorem whenFormed_true (r : Result) : whenFormed true r = r := rfl

/-- A result comes only from a term some encoding gives. -/
theorem whenFormed_eq_next {ok : Bool} {r : Result} {t : State} (h : whenFormed ok r = .next t) : ok = true ∧ r = .next t := by
  unfold whenFormed at h
  split at h
  · exact ⟨by assumption, h⟩
  · simp at h

/-- One fetch: CMD_RX and one reply, nothing else. -/
theorem State.fetchOnce_eq (s : State) :
    s.fetchOnce = (s.withCmdRx (fetchPacket s.params s.cmdRx).rx).reply (.fetch (fetchPacket s.params s.cmdRx).result) := rfl

/-- Handing a message over: one reply, nothing else. -/
theorem State.takeMessage_eq (s : State) (type : Word) (tail : MsgTail) (view : List Byte → Option PayloadView) :
    s.takeMessage type tail view =
      s.reply (.message (messageFields (messageBytes type tail)) (view (messageFields (messageBytes type tail)).payload)) := rfl

/-- R132 to R137: one pass on a frame's bytes takes exactly that frame. -/
theorem dispPass_frameBytes (type : Byte) (payload rest : List Byte) (h : payload.length < 65536) :
    dispPass (frameBytes type payload ++ rest) = .frame type payload rest := by
  have hs : (be16At (frameBytes type payload ++ rest) 3).toNat = payload.length := by
    simp only [be16At, frameBytes, be16Bytes, List.cons_append, List.nil_append, byteOf_cons_succ, byteOf_cons_zero,
      be16_highByte_lowByte, BitVec.toNat_ofNat]
    omega
  have hf : find2 dispMagic0 dispMagic1 (frameBytes type payload ++ rest) = some 0 := by
    simp [frameBytes, find2_cons]
  have hl : (frameBytes type payload ++ rest).length = 5 + payload.length + rest.length := by
    rw [List.length_append, frameBytes_length]
  rw [dispPass, if_neg (by omega), hf]
  simp only [List.drop_zero]
  rw [dispExtract, if_neg (by omega), hs, if_neg (by omega)]
  simp [frameBytes, slice, be16Bytes, byteOf, Nat.add_comm 5]

/-- DISP_INGEST of a frame's bytes into an empty DISP_RX: the frame is handled, and nothing else changes. -/
theorem execDispIngest_frameBytes (s : State) (type : Byte) (payload : List Byte) (h : payload.length < 65536)
    (he : s.dispRx = []) (hc : 65540 ≤ s.params.dispRxCap) :
    execDispIngest (frameBytes type payload) s =
      .next ((s.withBitmap (handleFrame type payload s.bitmap).bitmap).reply
        (.events [(handleFrame type payload s.bitmap).event])) := by
  have hp := dispPass_frameBytes type payload [] h
  rw [List.append_nil] at hp
  have hn : ∀ m, dispDrain [] m = { rx := [], bitmap := m, events := [] } := fun m => rfl
  have hs : ∀ m, (s.withDispRx []).withBitmap m = s.withBitmap m := by
    intro m
    cases s
    cases he
    rfl
  rw [execDispIngest, if_neg (by rw [he, frameBytes_length]; simp only [List.length_nil]; omega), he, List.nil_append,
    dispDrain_eq, hp]
  simp only [hn, hs]

/-- R173 to R184: one attempt on a packet's bytes takes the packet, or 2 bytes of it when its footer is another. -/
theorem fetchPacket_packetBytes (p : Params) (region rest : List Byte) (foot0 foot1 : Byte) (h2 : 2 ≤ region.length)
    (h : region.length ≤ 65537) :
    fetchPacket p (packetBytes region foot0 foot1 ++ rest) =
      if foot0 = cmdFooter0 ∧ foot1 = cmdFooter1 then
        { result := openRegion p (BitVec.ofNat 16 (region.length - 2)) region, rx := rest }
      else { result := .resync, rx := (packetBytes region foot0 foot1).drop 2 ++ rest } := by
  have hn : (BitVec.ofNat 16 (region.length - 2)).toNat = region.length - 2 := by
    rw [BitVec.toNat_ofNat]
    omega
  have hs : le16At (packetBytes region foot0 foot1 ++ rest) 2 = BitVec.ofNat 16 (region.length - 2) := by
    simp [le16At, packetBytes, le16Bytes]
  have hf : find2 cmdHeader0 cmdHeader1 (packetBytes region foot0 foot1 ++ rest) = some 0 := by
    simp [packetBytes, find2_cons]
  have hl : (packetBytes region foot0 foot1 ++ rest).length = 6 + region.length + rest.length := by
    simp only [packetBytes, le16Bytes, List.length_append, List.length_cons, List.length_nil]
    omega
  have e : ∀ r : List Byte, packetBytes region foot0 foot1 ++ r =
      [cmdHeader0, cmdHeader1] ++ le16Bytes (BitVec.ofNat 16 (region.length - 2)) ++ (region ++ (foot0 :: foot1 :: r)) := by
    intro r
    simp [packetBytes]
  have h4 : ([cmdHeader0, cmdHeader1] ++ le16Bytes (BitVec.ofNat 16 (region.length - 2)) : List Byte).length = 4 := rfl
  have f0 : byteOf (packetBytes region foot0 foot1 ++ rest) (6 + (region.length - 2)) = foot0 := by
    rw [e, byteOf_append_right _ _ _ (by omega), byteOf_append_right _ _ _ (by omega),
      show 6 + (region.length - 2) - _ - region.length = 0 by omega]
    rfl
  have f1 : byteOf (packetBytes region foot0 foot1 ++ rest) (6 + (region.length - 2) + 1) = foot1 := by
    rw [e, byteOf_append_right _ _ _ (by omega), byteOf_append_right _ _ _ (by omega),
      show 6 + (region.length - 2) + 1 - _ - region.length = 1 by omega]
    rfl
  have hr : slice (packetBytes region foot0 foot1 ++ rest) 4 (6 + (region.length - 2)) = region := by
    rw [e, slice, List.drop_left' h4, List.take_left' (by omega)]
  have hd : (packetBytes region foot0 foot1 ++ rest).drop (6 + (region.length - 2) + 2) = rest := by
    rw [e, show 6 + (region.length - 2) + 2 = 4 + (region.length + 2) by omega, ← List.drop_drop, List.drop_left' h4,
      ← List.drop_drop, List.drop_left' rfl]
    rfl
  rw [fetchPacket, if_neg (by omega), hf]
  simp only [List.drop_zero]
  rw [pktExtract, if_neg (by omega)]
  simp only [hs, hn, f0, f1, hr, hd]
  rw [if_neg (by omega)]
  by_cases hfoot : foot0 = cmdFooter0 ∧ foot1 = cmdFooter1
  · simp [hfoot]
  · rw [if_pos (not_and_or.mp hfoot), if_neg hfoot]
    rfl

/-- A frame's row is DISP_INGEST of its bytes. -/
theorem exec_frameInstr (s : State) (type : Byte) (payload : List Byte) (h : payload.length < 65536) :
    exec (frameInstr type payload) s = execDispIngest (frameBytes type payload) s := by
  unfold frameInstr
  cases hc : frameClass type payload.length with
  | screenshot =>
    obtain rfl : type = typeScreenshot := by
      unfold frameClass at hc
      split at hc
      · rename_i hx
        exact hx.1
      · split at hc <;> simp at hc
    simp [exec, execDispScreenshot, whenFormed, frameFits, h, hc]
  | diff =>
    obtain rfl : type = typeDiff := by
      unfold frameClass at hc
      split at hc
      · simp at hc
      · split at hc
        · rename_i hx
          exact hx.1
        · simp at hc
    simp [exec, execDispDiff, whenFormed, frameFits, h, hc]
  | unknown => simp [exec, execDispUnknown, whenFormed, frameFits, h, hc]

end Sys2Proof.Machine
end

