-- ==== Sys2Proof/Tests/Slice0.lean ====
section
/-! SUPPORT. The model's own tests. Expected values are those of 95_test_vectors.md (its vector ids in the comments) or
hand calculation from the rules. -/

namespace Sys2Proof.Tests

open Sys2Proof Sys2Proof.Machine

/-! Helpers. -/

/-- The reset state with these contents of the receive buffers. -/
def buffered (disp cmd : List Byte) : State := (State.reset.withDispRx disp).withCmdRx cmd

/-- A state with tiny capacities, to stand at their edges. -/
def tiny (disp cmd : List Byte) : State :=
  { buffered disp cmd with params := { Config.params with dispRxCap := 6, cmdRxCap := 9 } }

/-- The reset state with CRC enforcement. -/
def enforcing : State := State.resetWith { Config.params with crcEnforce := true }

/-- The next state, where there is one. -/
def nextOf : Result → Option State
  | .next t => some t
  | _ => none

/-- The replies after running an instruction. -/
def repliesOf (i : Instr) (s : State) : Option (List Reply) := (nextOf (exec i s)).map State.replies

/-- `n` bytes counting up from `a`. -/
def countUp : Nat → Nat → List Byte
  | 0, _ => []
  | n + 1, a => BitVec.ofNat 8 a :: countUp n (a + 1)

/-- TB4's packet. -/
def ackPacket : List Byte :=
  [0xAB, 0xCD, 0x08, 0x00, 0x07, 0x6A, 0x10, 0xE6, 0x29, 0x91, 0x0D, 0x42, 0xAD, 0x99, 0xDC, 0xBA]

/-- TF3's packet, one CRC byte changed. -/
def badCrcPacket : List Byte :=
  [0xAB, 0xCD, 0x08, 0x00, 0x02, 0x69, 0x10, 0xE6, 0x56, 0xC7, 0x39, 0x52, 0x05, 0xA8, 0xDC, 0xBA]

/-- The result of TF1. -/
def ackResult : FetchResult :=
  .packet { type := 0x0611, plen := some 4, body := [7, 0, 0, 2], payload := [7, 0, 0, 2], crcRx := 0xAC8C,
            crcCalc := 0xAC8C, crcOk := true }

/-! WellFormed refuses an ill-formed term of each check. -/

theorem test_wf_screenshot_size : ¬WellFormed (.dispScreenshot [1, 2, 3]) := by decide
theorem test_wf_diff_size : ¬WellFormed (.dispDiff [1, 2, 3]) := by decide
theorem test_wf_unknown_is_diff : ¬WellFormed (.dispUnknown 2 []) := by decide
theorem test_wf_chunk_short : ¬WellFormed (.diffChunk 5 [1, 2, 3]) := by decide
theorem test_wf_stop_short : ¬WellFormed (.diffStop 5 [1, 2, 3]) := by decide
theorem test_wf_packet_without_crc : ¬WellFormed (.cmdPacket [1] 0xDC 0xBA) := by decide
theorem test_wf_other_type_recognised : ¬WellFormed (.msgOther 0x0514 (.short none)) := by decide
theorem test_wf_call_too_long (d : List Byte) (h : d.length = 4294967296) : ¬WellFormed (.xorApply d) := by
  simp [WellFormed, Instr.wellFormed, callLengthFits, h]
theorem test_wf_frame_too_long (d : List Byte) (h : d.length = 65536) : ¬WellFormed (.dispUnknown 7 d) := by
  simp [WellFormed, Instr.wellFormed, frameFits, h]
theorem test_wf_packet_too_long (d : List Byte) (h : d.length = 65538) : ¬WellFormed (.cmdPacket d 0 0) := by
  simp [WellFormed, Instr.wellFormed, regionFits, h]
theorem test_wf_message_too_long (d : List Byte) (h : d.length = 65532) : ¬WellFormed (.msgSessionInit (.full 0 d)) := by
  simp [WellFormed, Instr.wellFormed, tailFits, h]
theorem test_wf_refused_by_exec : nextOf (exec (.diffChunk 5 [1, 2, 3]) State.reset) = none := by decide

/-! Decoding, one word of the spec's encoding for each constructor (R91; R63, R66, R67, R69, R72, R89). -/

theorem test_decode_xorApply : decode .call [0x01, 0x03, 0, 0, 0, 0x00, 0x01, 0x02] = .ok (.xorApply [0, 1, 2], []) := by decide
theorem test_decode_crcInit : decode .call [0x02] = .ok (.crcInit, []) := by decide
theorem test_decode_crcByte : decode .call [0x03, 0x31] = .ok (.crcByte 0x31, []) := by decide
theorem test_decode_crcRead : decode .call [0x04] = .ok (.crcRead, []) := by decide
theorem test_decode_crc16 : decode .call [0x05, 0x02, 0, 0, 0, 0x31, 0x32] = .ok (.crc16 [0x31, 0x32], []) := by decide
theorem test_decode_dispIngest : decode .call [0x10, 0x02, 0, 0, 0, 0xAA, 0x55] = .ok (.dispIngest [0xAA, 0x55], []) := by
  decide
theorem test_decode_dispPixel : decode .call [0x11, 0x08, 0x00] = .ok (.dispPixel 8 0, []) := by decide
theorem test_decode_dispRead : decode .call [0x12] = .ok (.dispRead, []) := by decide
theorem test_decode_pktBuild :
    decode .call [0x20, 0x14, 0x05, 0x01, 0, 0, 0, 0x78] = .ok (.pktBuild 0x0514 [0x78], []) := by decide
theorem test_decode_pktFetch : decode .call [0x21] = .ok (.pktFetch, []) := by decide
theorem test_decode_cmdIngest : decode .call [0x22, 0x01, 0, 0, 0, 0xAB] = .ok (.cmdIngest [0xAB], []) := by decide
theorem test_decode_reset : decode .call [0x30, 0x02] = .ok (.reset, [0x02]) := by decide
theorem test_decode_bad_selector : decode .call [0x40] = .error (.badSelector 0x40) := by decide
theorem test_decode_truncated : decode .call [0x05, 0x02, 0, 0, 0, 0x31] = .error (.truncated .call) := by decide
theorem test_decode_screenshot :
    decode .displayFrame ([0xAA, 0x55, 0x01, 0x04, 0x00] ++ List.replicate 1024 7) =
      .ok (.dispScreenshot (List.replicate 1024 7), []) := by
  decide +kernel
theorem test_decode_diff :
    decode .displayFrame [0xAA, 0x55, 0x02, 0x00, 0x09, 3, 1, 2, 3, 4, 5, 6, 7, 8] =
      .ok (.dispDiff [3, 1, 2, 3, 4, 5, 6, 7, 8], []) := by decide
theorem test_decode_unknown : decode .displayFrame [0xAA, 0x55, 0x07, 0x00, 0x01, 0x33] = .ok (.dispUnknown 7 [0x33], []) := by
  decide
theorem test_decode_bad_magic : decode .displayFrame [0x55, 0xAA, 0x01, 0, 0] = .error (.badMagic .displayFrame) := by decide
theorem test_decode_chunk :
    decode .diffChunk [0x7F, 1, 2, 3, 4, 5, 6, 7, 8, 9] = .ok (.diffChunk 127 [1, 2, 3, 4, 5, 6, 7, 8], [9]) := by decide
theorem test_decode_stop :
    decode .diffChunk [0x80, 1, 2, 3, 4, 5, 6, 7, 8, 9] = .ok (.diffStop 0 [1, 2, 3, 4, 5, 6, 7, 8, 9], []) := by decide
theorem test_decode_packet :
    decode .commandPacket [0xAB, 0xCD, 0x01, 0x00, 0x77, 0x88, 0x99, 0xDC, 0xBA] =
      .ok (.cmdPacket [0x77, 0x88, 0x99] 0xDC 0xBA, []) := by decide
theorem test_decode_sessionInit :
    decode .message [0x14, 0x05, 4, 0, 1, 2, 3, 4] = .ok (.msgSessionInit (.full 4 [1, 2, 3, 4]), []) := by decide
theorem test_decode_sessionInfo :
    decode .message [0x15, 0x05, 5, 0, 1, 2, 3, 4, 9, 0] = .ok (.msgSessionInfo (.full 5 [1, 2, 3, 4, 9, 0]), []) := by decide
theorem test_decode_buttonEvent :
    decode .message [0x10, 0x06, 10, 0, 1, 2, 3, 4, 5, 6, 7, 8, 9, 10] =
      .ok (.msgButtonEvent (.full 10 [1, 2, 3, 4, 5, 6, 7, 8, 9, 10]), []) := by decide
theorem test_decode_buttonAck :
    decode .message [0x11, 0x06, 4, 0, 7, 0, 0, 2] = .ok (.msgButtonAck (.full 4 [7, 0, 0, 2]), []) := by decide
theorem test_decode_otherMessage : decode .message [0x34, 0x12, 0x05] = .ok (.msgOther 0x1234 (.short (some 5)), []) := by
  decide
theorem test_decode_keepalive : decode .raw [0x55, 0xAA, 0, 0] = .ok (.keepalive, []) := by decide

/-! Table words (log entry 8). -/

theorem test_table_reset : decodeTableWord 8 0x30 = some .reset := by decide
theorem test_table_build : decodeTableWord 8 0x20 = some (.pktBuild 0 []) := by decide
theorem test_table_chunk : decodeTableWord 8 0x00 = some (.diffChunk 0 [0, 0, 0, 0, 0, 0, 0, 0]) := by decide
theorem test_table_stop : decodeTableWord 8 0x80 = some (.diffStop 0 [0, 0, 0, 0, 0, 0, 0, 0]) := by decide
theorem test_table_packet : decodeTableWord 16 0xABCD = some (.cmdPacket [0, 0] 0 0) := by decide
theorem test_table_message : decodeTableWord 16 0x1006 = some (.msgButtonEvent (.full 0 [])) := by decide
theorem test_table_otherMessage : decodeTableWord 16 0x0000 = some (.msgOther 0 (.full 0 [])) := by decide
theorem test_table_keepalive : decodeTableWord 32 0x55AA0000 = some .keepalive := by decide
theorem test_table_unknown : decodeTableWord 16 0xAA55 = some (.dispUnknown 0 []) := by decide
theorem test_table_diff : decodeTableWord 24 0xAA5502 = some (.dispDiff []) := by decide
theorem test_table_screenshot : decodeTableWord 40 0xAA55010400 = some (.dispScreenshot (List.replicate 1024 0)) := by
  decide +kernel
theorem test_table_word_is_stepped : step (State.reset.withFetchWord 8 0x02) = exec .crcInit State.reset := by rfl
theorem test_table_frame_is_stepped : step (State.reset.withFetchWord 16 0xAA55) = exec (.dispUnknown 0 []) State.reset := by rfl

/-! Operations. -/

/-- TX2. -/
theorem test_xorApply : repliesOf (.xorApply [0, 1, 2]) State.reset = some [.bytes [0x16, 0x6D, 0x16]] := by decide
/-- TX5, its last bytes: the key wraps. -/
theorem test_xorApply_wraps :
    (xorApply Config.kGk (List.replicate 20 0xFF)).drop 15 = [0x7F, 0xE9, 0x93, 0xEB, 0x19] := by decide
/-- TC6. -/
theorem test_crc16 : repliesOf (.crc16 [0x31, 0x32, 0x33, 0x34, 0x35, 0x36, 0x37, 0x38, 0x39]) State.reset =
    some [.word 0x31C3] := by decide +kernel
/-- TC5. -/
theorem test_crc16_ff : crc16 [0xFF] = 0x1EF0 := by decide
/-- TC4, from R115. -/
theorem test_crcByte : (nextOf (exec (.crcByte 0x80) State.reset)).map State.crcReg = some 0x9188 := by decide
/-- TC15's register value is read, and not by CRC16. -/
theorem test_crcRead : repliesOf .crcRead (State.reset.withCrcReg 0x1234) = some [.word 0x1234] := by decide
/-- TC14. -/
theorem test_crcInit : (nextOf (exec .crcInit (State.reset.withCrcReg 0x1021))).map State.crcReg = some 0 := by decide

/-- TD6: the first chunk applies, the second stops the diff. -/
theorem test_dispIngest_stop :
    (nextOf (exec (.dispIngest ([0xAA, 0x55, 0x02, 0x00, 0x12, 0x05] ++ List.replicate 8 0xA5 ++ [0x80] ++
      List.replicate 8 0x5A)) State.reset)).map (fun t => (t.dispRx, t.bitmap)) =
    some ([], [(40, 0xA5), (41, 0xA5), (42, 0xA5), (43, 0xA5), (44, 0xA5), (45, 0xA5), (46, 0xA5), (47, 0xA5)]) := by decide +kernel
/-- TD12 behind one byte of garbage, and a kept half of a header. -/
theorem test_dispIngest_garbage :
    (nextOf (exec (.dispIngest [0x11, 0xAA, 0x55, 0x07, 0x00, 0x01, 0x33, 1, 2, 3, 4, 0xAA]) State.reset)).map
      (fun t => (t.dispRx, t.replies)) = some ([0xAA], [.events [.unknownFrame 7 1]]) := by decide
/-- TD19: byte 40 = A5 gives pixel 64 of row 2 on, pixel 65 off. -/
theorem test_dispPixel_on : repliesOf (.dispPixel 64 2) (State.reset.withBitmap [(40, 0xA5)]) = some [.bit true] := by decide
/-- TD20. -/
theorem test_dispPixel_range : repliesOf (.dispPixel 128 0) State.reset = some [.outOfRange 128 0] := by decide
/-- R147: byte 1023 of the copy. -/
theorem test_dispRead :
    (nextOf (exec .dispRead (State.reset.withBitmap [(1023, 0x11)]))).map
      (fun t => t.replies.map fun r => match r with | .bytes v => (v.length, v[1023]?) | _ => (0, none)) =
    some [(1024, some 0x11)] := by decide +kernel

/-- TB1. -/
theorem test_pktBuild : repliesOf (.pktBuild 0x0514 [0x78, 0x56, 0x34, 0x12]) State.reset =
    some [.bytes [0xAB, 0xCD, 0x08, 0x00, 0x02, 0x69, 0x10, 0xE6, 0x56, 0xC7, 0x39, 0x52, 0x04, 0xA8, 0xDC, 0xBA]] := by decide +kernel
/-- TB6: an odd payload is padded. -/
theorem test_pktBuild_pads : repliesOf (.pktBuild 0x0001 [0xAA]) State.reset =
    some [.bytes [0xAB, 0xCD, 0x06, 0x00, 0x17, 0x6C, 0x15, 0xE6, 0x84, 0x91, 0xAC, 0x81, 0xDC, 0xBA]] := by decide +kernel
/-- The example of R172. -/
theorem test_pktFetch : (nextOf (exec .pktFetch (buffered [] ackPacket))).map (fun t => (t.cmdRx, t.replies)) =
    some ([], [.fetch ackResult]) := by decide +kernel
/-- TF9's buffer: a footer mismatch takes 2 bytes and the garbage before them. -/
theorem test_pktFetch_resync :
    (nextOf (exec .pktFetch (buffered [] [0xFF, 0xFF, 0xFF, 0xAB, 0xCD, 0x02, 0x00, 0x11, 0x22, 0x33, 0x44, 0x55, 0x66]))).map
      (fun t => (t.cmdRx, t.replies)) =
    some ([0x02, 0x00, 0x11, 0x22, 0x33, 0x44, 0x55, 0x66], [.fetch .resync]) := by decide
/-- TF3 with CRC_ENFORCE = true. -/
theorem test_cmdIngest_enforced : repliesOf (.cmdIngest badCrcPacket) enforcing =
    some [.fetches [.malformedCrc 0x9D24 0x9D25, .needMore]] := by decide +kernel
/-- TF7: a payload length larger than the body. -/
theorem test_cmdIngest_long_plen :
    repliesOf (.cmdIngest [0xAB, 0xCD, 0x06, 0x00, 0x17, 0x6C, 0x1D, 0xE6, 0xC0, 0x6E, 0x97, 0xDB, 0xDC, 0xBA]) State.reset =
    some [.fetches [.packet { type := 1, plen := some 9, body := [0xEE, 0xFF], payload := [0xEE, 0xFF], crcRx := 0x9B9A,
                              crcCalc := 0x9B9A, crcOk := true }, .needMore]] := by decide +kernel
/-- TM1. -/
theorem test_reset : (nextOf (exec .reset ((buffered [1] [2]).withCrcReg 5))).map (fun t => (t.crcReg, t.dispRx, t.cmdRx)) =
    some (0, [], []) := by decide

/-! Wire rows. -/

/-- TD4, by its row: bytes 1 and 1023 of `pat`, and byte 256 is zero. -/
theorem test_screenshot :
    (nextOf (exec (.dispScreenshot (countUp 1024 0)) State.reset)).map
      (fun t => (t.bitmap.byteAt 1, t.bitmap.byteAt 1023, t.bitmap.byteAt 256, t.bitmap.wf)) =
    some (1, 0xFF, 0, true) := by decide +kernel
/-- TD8, by its row: the later chunk for the same block stands. -/
theorem test_diff_later_wins :
    (nextOf (exec (.dispDiff ([0x28] ++ List.replicate 8 1 ++ [0x28] ++ List.replicate 8 2)) State.reset)).map
      (fun t => (t.bitmap.byteAt 320, t.bitmap.byteAt 328)) = some (2, 0) := by decide +kernel
theorem test_unknown : repliesOf (.dispUnknown 1 []) State.reset = some [.events [.unknownFrame 1 0]] := by decide
/-- A chunk over an earlier byte: a zero byte leaves no entry. -/
theorem test_chunk : (nextOf (exec (.diffChunk 127 [1, 0, 0, 0, 0, 0, 0, 9]) (State.reset.withBitmap [(5, 7), (1017, 3)]))).map
    State.bitmap = some [(5, 7), (1016, 1), (1023, 9)] := by decide
/-- R144: the Diff of a stop marker changes no byte and has its event. -/
theorem test_stop : nextOf (exec (.diffStop 0 [1, 1, 1, 1, 1, 1, 1, 1]) State.reset) =
    some (State.reset.reply (.events [.diffApplied (List.replicate 1024 0)])) := by decide +kernel
theorem test_keepalive : nextOf (exec .keepalive State.reset) = some State.reset := by decide
/-- TF4, by its row. -/
theorem test_packet_short : repliesOf (.cmdPacket [0x77, 0x88, 0x99] 0xDC 0xBA) State.reset =
    some [.fetches [.malformedShort 1, .needMore]] := by decide
/-- R177, R173: the footer bytes are not `DC BA`, and the 6 bytes left are too few. -/
theorem test_packet_resync : (nextOf (exec (.cmdPacket [1, 2] 3 4) State.reset)).map (fun t => (t.cmdRx, t.replies)) =
    some ([0, 0, 1, 2, 3, 4], [.fetches [.resync, .needMore]]) := by decide
/-- The payload of TB1, TB2, TB3, TB4 under its own row (R73 to R76). -/
theorem test_sessionInit : repliesOf (.msgSessionInit (.full 4 [0x78, 0x56, 0x34, 0x12])) State.reset =
    some [.message { type := 0x0514, plen := some 4, body := [0x78, 0x56, 0x34, 0x12], payload := [0x78, 0x56, 0x34, 0x12] }
      (some (.sessionInit 0x12345678))] := by decide
theorem test_sessionInfo : repliesOf (.msgSessionInfo (.full 5 [0x78, 0x56, 0x34, 0x12, 0x99, 0x00])) State.reset =
    some [.message { type := 0x0515, plen := some 5, body := [0x78, 0x56, 0x34, 0x12, 0x99, 0x00],
                     payload := [0x78, 0x56, 0x34, 0x12, 0x99] } (some (.sessionInfo 0x12345678 [0x99]))] := by decide
theorem test_buttonEvent :
    (repliesOf (.msgButtonEvent (.full 10 [0x78, 0x56, 0x34, 0x12, 0x01, 0x00, 0x0D, 0x00, 0x00, 0x00])) State.reset).map
      (fun rs => rs.map fun r => match r with | .message _ v => v | _ => none) =
    some [some (.buttonEvent 0x12345678 1 0x0D 0 0)] := by decide
theorem test_buttonAck :
    (repliesOf (.msgButtonAck (.full 4 [7, 0, 0, 2])) State.reset).map
      (fun rs => rs.map fun r => match r with | .message _ v => v | _ => none) = some [some (.buttonAck 7 0 2)] := by decide
/-- R182: `msgLen` 2 or 3 has no payload length. -/
theorem test_otherMessage : repliesOf (.msgOther 0x1234 (.short (some 5))) State.reset =
    some [.message { type := 0x1234, plen := none, body := [], payload := [] } none] := by decide
theorem test_status_names : statusName 3 = some "stale" ∧ statusName 4 = none ∧ actionName 1 = some "release" := by decide

/-! Steps. -/

/-- P4 line 6 between two lines of a listing: `40` is refused, `30` runs next. -/
theorem test_step_bad_selector :
    nextOf (step (State.reset.withInbox [{ format := .call, bytes := [0x40, 0x30] }])) =
      some ((State.reset.withInbox [{ format := .call, bytes := [0x30] }]).reply (.badSelector 0x40)) := by decide
theorem test_step_undecodable : nextOf (step (State.reset.withInbox [{ format := .call, bytes := [0x03] }])) = none := by decide
theorem test_step_spent : nextOf (step (State.reset.withInbox [{ format := .call, bytes := [] }])) = some State.reset := by
  decide

/-! Witnesses: for each statement with hypotheses, a state and operands that meet all of them (for several clauses, one at
the edge of each). -/

/-- A listing of two calls waiting. -/
def listing : State := State.reset.withInbox [{ format := .call, bytes := [0x03, 0x31, 0x04] }]

/-- A header behind one byte of garbage, its frame one byte short; and whole. -/
def shortFrame : List Byte := [0x11, 0xAA, 0x55, 0x07, 0x00, 0x01]
def wholeFrame : List Byte := [0x11, 0xAA, 0x55, 0x07, 0x00, 0x01, 0x33]

theorem firstPair_one {b0 b1 : Byte} {s : List Byte} (h : PairAt b0 b1 s 1) (h0 : ¬PairAt b0 b1 s 0) : FirstPair b0 b1 s 1 :=
  ⟨h, fun j hj => by
    obtain rfl : j = 0 := by omega
    exact h0⟩

theorem firstPair_zero {b0 b1 : Byte} {s : List Byte} (h : PairAt b0 b1 s 0) : FirstPair b0 b1 s 0 :=
  ⟨h, fun j hj => by omega⟩

theorem noPair_of_find2 {b0 b1 : Byte} {s : List Byte} (h : find2 b0 b1 s = none) (k : Nat) : ¬PairAt b0 b1 s k := by
  rintro ⟨h0, h1⟩
  obtain ⟨hk, e0⟩ := List.getElem?_eq_some_iff.mp h0
  obtain ⟨hk1, e1⟩ := List.getElem?_eq_some_iff.mp h1
  exact find2_none h k hk1 ⟨by rw [byteOf_eq_getElem _ _ hk, e0], by rw [byteOf_eq_getElem _ _ hk1, e1]⟩

theorem test_witness_StepRunsTheDecodedInstruction :
    listing.inbox = [{ format := .call, bytes := [0x03, 0x31, 0x04] }] ∧
    decode .call [0x03, 0x31, 0x04] = .ok (.crcByte 0x31, [0x04]) ∧ decode .call [0x04] = .ok (.crcRead, []) := by decide
theorem test_witness_IdleBlockDoesNotChange : State.reset.inbox = [] := rfl
/-- A step that changes the block, by a wire row. -/
theorem test_witness_OnlyAnOperationChangesTheBlock :
    step (State.reset.withInbox [{ format := .diffChunk, bytes := [5, 1, 0, 0, 0, 0, 0, 0, 0] }]) =
      exec (.diffChunk 5 [1, 0, 0, 0, 0, 0, 0, 0]) State.reset ∧
    (nextOf (exec (.diffChunk 5 [1, 0, 0, 0, 0, 0, 0, 0]) State.reset)).map State.bitmap = some [(40, 1)] := by
  constructor
  · rfl
  · decide +kernel
theorem test_witness_UnlistedSelectorIsRefused :
    (0x06 : Byte) ∉ [0x01#8, 0x02#8, 0x03#8, 0x04#8, 0x05#8, 0x10#8, 0x11#8, 0x12#8, 0x20#8, 0x21#8, 0x22#8, 0x30#8] ∧
    (State.reset.withInbox [{ format := .call, bytes := [0x06] }]).inbox = [{ format := .call, bytes := [0x06] }] := by decide
theorem test_witness_DecodeOfEncodeIsTheInstruction :
    WellFormed (.dispDiff []) ∧ WellFormed (.dispUnknown 1 []) ∧ WellFormed (.cmdPacket [0, 0] 0 0) ∧
    WellFormed (.msgOther 0x0513 (.short none)) ∧ WellFormed (.diffStop 127 [0, 0, 0, 0, 0, 0, 0, 0]) := by decide
theorem test_witness_EncodedInstructionsFollowOneAnother :
    WellFormed (.crcByte 0) ∧ (Instr.crcByte 0).format ∈ [Format.call, .displayFrame, .commandPacket, .raw] ∧
    WellFormed (.diffChunk 127 [1, 2, 3, 4, 5, 6, 7, 8]) := by decide
theorem test_witness_ListingRunsLineByLine :
    [Instr.crcByte 0x31, .crcRead] ≠ [] ∧ (∀ i ∈ [Instr.crcByte 0x31, .crcRead], WellFormed i ∧ i.format = .call) ∧
    listing.inbox = [{ format := .call, bytes := ([Instr.crcByte 0x31, .crcRead].map encode).flatten }] := by decide
theorem test_witness_FrameRowIsDecidedByTypeAndSize :
    (List.replicate 1024 (0 : Byte)).length < 65536 ∧ (List.replicate 1024 (0 : Byte)).length = 1024 ∧
    ([] : List Byte).length % 9 = 0 ∧ ([0] : List Byte).length < 65536 := by decide +kernel
theorem test_witness_FieldsAreAssembledInTheirByteOrder : 0 + 3 < ([1, 2, 3, 4] : List Byte).length := by decide
theorem test_witness_EveryStepKeepsTheInvariant :
    (buffered [0xAA, 0x55, 0x01, 0x04, 0x00] ackPacket).Inv ∧
    step (buffered [0xAA, 0x55, 0x01, 0x04, 0x00] ackPacket) = .next (buffered [0xAA, 0x55, 0x01, 0x04, 0x00] ackPacket) ∧
    listing.Inv ∧ step listing = exec (.crcByte 0x31) (listing.withInbox [{ format := .call, bytes := [0x04] }]) :=
  ⟨by decide, rfl, by decide, rfl⟩
theorem test_witness_ResetMeetsTheInvariant : Config.params.wf := by decide
theorem test_witness_EveryWellFormedInstructionCompletes : WellFormed (.cmdPacket [1, 2] 0xDC 0xBA) := by decide
theorem test_witness_OnlyTheNamedInstructionsChangeEachPart :
    exec (.crcByte 1) State.reset = .next ((State.reset.withCrcReg 0x1021).reply .done) ∧
    ((State.reset.withCrcReg 0x1021).reply .done).crcReg ≠ State.reset.crcReg := ⟨rfl, by decide⟩
theorem test_witness_NoStepWritesTheKey : step State.reset = .next State.reset := rfl
theorem test_witness_NoStepChangesAReplyAlreadyGiven : step (State.reset.reply .done) = .next (State.reset.reply .done) := rfl
theorem test_witness_RefusalLeavesTheBlockAsItWas :
    exec (.dispPixel 128 0) State.reset = .next (State.reset.reply (.outOfRange 128 0)) ∧
    exec (.dispIngest [1]) (tiny [1, 2, 3, 4, 5, 6] []) = .next ((tiny [1, 2, 3, 4, 5, 6] []).reply .capacityExceeded) := ⟨rfl, rfl⟩
theorem test_witness_XorApplySplitsAtMultiplesOfTheKeyLength : (List.replicate 16 (1 : Byte)).length % 16 = 0 := by decide
theorem test_witness_RegisterViewAgreesAndDoesNotInterfere :
    Instr.pktFetch ≠ .crcInit ∧ (∀ b, Instr.pktFetch ≠ .crcByte b) ∧ Instr.pktFetch ≠ .crcRead ∧ Instr.pktFetch ≠ .reset := by
  simp
theorem test_witness_CrcLaws :
    exec (.crc16 [0x01]) State.reset = .next (State.reset.reply (.word 0x1021)) ∧
    exec (.crc16 [0x80]) State.reset = .next (State.reset.reply (.word 0x9188)) ∧
    ([0x01] : List Byte).length = ([0x80] : List Byte).length := ⟨rfl, rfl, rfl⟩
theorem test_witness_IngestAppendsWithinTheCap :
    (tiny [1, 2, 3, 4] []).params.dispRxCap < (tiny [1, 2, 3, 4] []).dispRx.length + ([5, 6, 7] : List Byte).length ∧
    (tiny [1, 2, 3, 4] []).dispRx.length + ([5, 6] : List Byte).length = (tiny [1, 2, 3, 4] []).params.dispRxCap ∧
    (tiny [] [1, 2, 3]).params.cmdRxCap < (tiny [] [1, 2, 3]).cmdRx.length + ([1, 2, 3, 4, 5, 6, 7] : List Byte).length ∧
    (tiny [] [1, 2, 3]).cmdRx.length + ([1, 2, 3, 4, 5, 6] : List Byte).length = (tiny [] [1, 2, 3]).params.cmdRxCap := by
  decide
theorem test_witness_DisplayParserWaitsWithoutAWholeFrame :
    (buffered [0xAA, 0x55, 7, 0] []).dispRx.length < 5 ∧
    (5 = (buffered [0xAA, 0, 0x55, 0xAA, 0xAA] []).dispRx.length ∧
      ∀ k, ¬PairAt 0xAA 0x55 (buffered [0xAA, 0, 0x55, 0xAA, 0xAA] []).dispRx k) ∧
    FirstPair 0xAA 0x55 (buffered shortFrame []).dispRx 1 ∧
    (buffered shortFrame []).dispRx.length - 1 < 5 + (be16At (buffered shortFrame []).dispRx (1 + 3)).toNat ∧
    (buffered shortFrame []).dispRx.length ≤ (buffered shortFrame []).params.dispRxCap :=
  ⟨by decide, ⟨by decide, noPair_of_find2 (by decide)⟩, firstPair_one (by decide) (by decide), by decide, by decide⟩
theorem test_witness_DisplayParserTakesAWholeFrame :
    FirstPair 0xAA 0x55 (buffered wholeFrame []).dispRx 1 ∧
    5 + (be16At (buffered wholeFrame []).dispRx (1 + 3)).toNat = (buffered wholeFrame []).dispRx.length - 1 ∧
    (buffered wholeFrame []).dispRx.length ≤ (buffered wholeFrame []).params.dispRxCap :=
  ⟨firstPair_one (by decide) (by decide), by decide, by decide⟩
theorem test_witness_ScreenshotReplacesTheBitmap :
    (countUp 1024 0).length = 1024 ∧ State.reset.dispRx = [] ∧ State.reset.params.wf := by decide +kernel
theorem test_witness_DiffAppliesItsChunksUpToTheStop :
    (∀ c ∈ [((127 : Byte), List.replicate 8 (1 : Byte)), (128, List.replicate 8 2), (5, List.replicate 8 3)],
      c.2.length = 8) ∧
    [((127 : Byte), List.replicate 8 (1 : Byte)), (128, List.replicate 8 2), (5, List.replicate 8 3)].length ≤ 7281 ∧
    State.reset.dispRx = [] ∧ State.reset.params.wf := by decide
theorem test_witness_UnknownFrameIsOnlyReported :
    (List.replicate 1023 (0 : Byte)).length < 65536 ∧ ¬((1 : Byte) = 1 ∧ (List.replicate 1023 (0 : Byte)).length = 1024) ∧
    ¬((1 : Byte) = 2 ∧ (List.replicate 1023 (0 : Byte)).length % 9 = 0) ∧ State.reset.dispRx = [] ∧ State.reset.params.wf := by decide +kernel
theorem test_witness_ChunkReplacesItsBlock :
    (List.replicate 8 (1 : Byte)).length = 8 ∧ State.reset.dispRx = [] ∧ State.reset.params.wf := by decide
theorem test_witness_ChunkByChunkIsTheDiff :
    (List.replicate 18 (1 : Byte)).length % 9 = 0 ∧ (List.replicate 18 (1 : Byte)).length < 65536 ∧
    State.reset.dispRx = [] ∧ State.reset.params.wf ∧
    (State.reset.withInbox [{ format := .diffChunk, bytes := List.replicate 18 1 }]).inbox =
      [{ format := .diffChunk, bytes := List.replicate 18 1 }] := by decide
theorem test_witness_StopMarkerAndKeepaliveChangeNothing :
    8 ≤ (List.replicate 8 (1 : Byte)).length ∧ State.reset.dispRx = [] ∧ State.reset.params.wf := by decide
theorem test_witness_WireRowsAreTheOperationsThatReadThem :
    WellFormed (.dispUnknown 1 []) ∧ (Instr.dispUnknown 1 []).format = .displayFrame ∧
    WellFormed (.diffStop 0 (List.replicate 17 1)) ∧ (Instr.diffStop 0 (List.replicate 17 1)).format = .diffChunk ∧
    WellFormed (.cmdPacket [1, 2] 3 4) ∧ (Instr.cmdPacket [1, 2] 3 4).format = .commandPacket := by decide
theorem test_witness_PixelReadGivesItsBit : (127 : Byte).toNat < 128 ∧ (63 : Byte).toNat < 64 ∧ 64 ≤ (64 : Byte).toNat := by
  decide
theorem test_witness_DispReadGivesTheBitmap : (State.reset.withBitmap [(0, 1), (1023, 0x11)]).bitmap.wf = true := by decide
theorem test_witness_DispRxIsSettledAfterIngest :
    exec (.dispIngest [1]) State.reset = .next ((State.reset.withDispRx [1]).reply (.events [])) ∧
    State.reset.dispRx.length + ([1] : List Byte).length ≤ State.reset.params.dispRxCap := ⟨rfl, by decide⟩
theorem test_witness_EmptyIngestChangesNothing :
    DispSettled (buffered [0xAA, 0x55, 1, 0, 1] []).dispRx ∧ CmdSettled (buffered [] [0xAB, 0xCD, 1, 0, 0, 0, 0, 0]).cmdRx ∧
    (buffered [0xAA, 0x55, 1, 0, 1] []).dispRx.length ≤ State.reset.params.dispRxCap ∧
    (buffered [] [0xAB, 0xCD, 1, 0, 0, 0, 0, 0]).cmdRx.length ≤ State.reset.params.cmdRxCap := by decide
theorem test_witness_IngestsEndWithinTheirBounds :
    (∃ t, exec (.dispIngest [0xAA, 0x55, 9, 0, 0]) State.reset = .next t ∧
      t.replies = State.reset.replies ++ [.events [.unknownFrame 9 0]]) ∧
    ∃ t, exec (.cmdIngest []) State.reset = .next t ∧ t.replies = State.reset.replies ++ [.fetches [.needMore]] :=
  ⟨⟨_, rfl, by decide⟩, ⟨_, rfl, by decide⟩⟩
theorem test_witness_DisplayParserDoesNotSeeTheCuts :
    [[0xAA], [], [0x55, 9, 0, 0, (0x77 : Byte)]] ≠ [] ∧ DispSettled State.reset.dispRx ∧
    State.reset.dispRx.length + [[0xAA], [], [0x55, 9, 0, 0, (0x77 : Byte)]].flatten.length ≤ State.reset.params.dispRxCap := by
  decide
theorem test_witness_AnySplitOfAFullFrameGivesItOnce :
    (countUp 1024 0).length = 1024 ∧ State.reset.dispRx = [] ∧ State.reset.params.wf ∧
    [[0xAA], [0x55, 0x01, 0x04], 0x00 :: countUp 1024 0].flatten = [0xAA#8, 0x55#8, 0x01#8, 0x04#8, 0x00#8] ++ countUp 1024 0 := by
  decide +kernel
theorem test_witness_BuildLaysOutThePacket : (List.replicate 65530 (0 : Byte)).length ≤ 65530 := by rw [List.length_replicate]
theorem test_witness_BuildRefusesALongPayload : 65530 < (List.replicate 65531 (0 : Byte)).length := by
  rw [List.length_replicate]
  omega
theorem test_witness_FetchNeedsMoreWithoutAWholePacket :
    (buffered [] [0xAB, 0xCD, 0, 0, 0, 0, 0]).cmdRx.length < 8 ∧
    (8 = (buffered [] [1, 2, 3, 4, 5, 6, 7, 0xAB]).cmdRx.length ∧
      ∀ k, ¬PairAt 0xAB 0xCD (buffered [] [1, 2, 3, 4, 5, 6, 7, 0xAB]).cmdRx k) ∧
    FirstPair 0xAB 0xCD (buffered [] (1 :: ackPacket.take 15)).cmdRx 1 ∧
    (buffered [] (1 :: ackPacket.take 15)).cmdRx.length - 1 <
      8 + (le16At (buffered [] (1 :: ackPacket.take 15)).cmdRx (1 + 2)).toNat :=
  ⟨by decide, ⟨by decide, noPair_of_find2 (by decide)⟩, firstPair_one (by decide) (by decide), by decide⟩
theorem test_witness_FetchResyncsOnABadFooter :
    FirstPair 0xAB 0xCD (buffered [] [1, 0xAB, 0xCD, 0, 0, 7, 7, 0xDC, 0xBB]).cmdRx 1 ∧
    0 = (le16At (buffered [] [1, 0xAB, 0xCD, 0, 0, 7, 7, 0xDC, 0xBB]).cmdRx (1 + 2)).toNat ∧
    8 + 0 = (buffered [] [1, 0xAB, 0xCD, 0, 0, 7, 7, 0xDC, 0xBB]).cmdRx.length - 1 ∧
    ¬PairAt 0xDC 0xBA (buffered [] [1, 0xAB, 0xCD, 0, 0, 7, 7, 0xDC, 0xBB]).cmdRx (1 + 6 + 0) :=
  ⟨firstPair_one (by decide) (by decide), by decide, by decide, by decide⟩
theorem test_witness_FetchTakesAWholePacket :
    FirstPair 0xAB 0xCD (buffered [] ackPacket).cmdRx 0 ∧ 8 = (le16At (buffered [] ackPacket).cmdRx (0 + 2)).toNat ∧
    8 + 8 = (buffered [] ackPacket).cmdRx.length - 0 ∧ PairAt 0xDC 0xBA (buffered [] ackPacket).cmdRx (0 + 6 + 8) :=
  ⟨firstPair_zero (by decide), by decide, by decide, by decide⟩
theorem test_witness_CmdIngestFetchesUntilNeedMore :
    (tiny [] []).cmdRx.length + (List.replicate 9 (1 : Byte)).length = (tiny [] []).params.cmdRxCap ∧
    (tiny [] []).params.cmdRxCap < (tiny [] []).cmdRx.length + (List.replicate 10 (1 : Byte)).length := by decide
theorem test_witness_CmdRxIsSettledAfterIngest :
    exec (.cmdIngest [1]) State.reset = .next ((State.reset.withCmdRx [1]).reply (.fetches [.needMore])) ∧
    State.reset.cmdRx.length + ([1] : List Byte).length ≤ State.reset.params.cmdRxCap := ⟨rfl, by decide⟩
theorem test_witness_BuildThenIngestRoundTrips :
    State.reset.cmdRx = [] ∧ State.reset.params.wf ∧ enforcing.cmdRx = [] ∧ enforcing.params.wf ∧
    ([0xAA] : List Byte).length ≤ 65530 := by decide
theorem test_witness_CommandParserDoesNotSeeTheCuts :
    [ackPacket.take 3, ackPacket.drop 3] ≠ [] ∧ CmdSettled State.reset.cmdRx ∧
    State.reset.cmdRx.length + [ackPacket.take 3, ackPacket.drop 3].flatten.length ≤ State.reset.params.cmdRxCap := by decide
theorem test_witness_PacketRowIsTheIngestOfThePacket :
    2 ≤ ([7, 7] : List Byte).length ∧ ([7, 7] : List Byte).length ≤ 65537 ∧
    (tiny [] [1, 2]).params.cmdRxCap < (tiny [] [1, 2]).cmdRx.length + (([7, 7] : List Byte).length + 6) ∧
    (tiny [] [1]).cmdRx.length + (([7, 7] : List Byte).length + 6) = (tiny [] [1]).params.cmdRxCap ∧
    State.reset.cmdRx = [] ∧ State.reset.params.wf ∧ ¬((3 : Byte) = 0xDC ∧ (4 : Byte) = 0xBA) := by decide
theorem test_witness_PayloadFieldsRoundTrip :
    viewType (.sessionInit 1) = 0x0514 ∧ viewType (.sessionInfo 1 [2]) = 0x0515 ∧
    viewType (.buttonEvent 1 2 3 4 5) = 0x0610 ∧ viewType (.buttonAck 1 2 3) = 0x0611 := by decide
theorem test_witness_FetchedPacketCarriesItsMessageFields :
    tailFits (.full 4 [7, 0, 0, 2]) = true ∧ State.reset.cmdRx = [] ∧ State.reset.params.wf := by decide

end Sys2Proof.Tests
end

section
/-! Proofs for the scope statements (00_scope.md R1): what the decoder can answer, what a step can do, that no meaning reads
the inbox, and which operation of R90 each wire row runs as. -/

namespace Sys2Proof

open Machine

/-! The length checks of WellFormed as facts about lengths. -/

theorem callLengthFits_iff {data : List Byte} : callLengthFits data = true ↔ data.length < 4294967296 :=
  decide_eq_true_iff

theorem frameFits_iff {c : FrameClass} {type : Byte} {payload : List Byte} :
    frameFits c type payload = true ↔ frameClass type payload.length = c ∧ payload.length < 65536 := by
  rw [frameFits, Bool.and_eq_true, decide_eq_true_iff, decide_eq_true_iff]

theorem regionFits_iff {region : List Byte} :
    regionFits region = true ↔ 2 ≤ region.length ∧ region.length ≤ 65537 := by
  rw [regionFits, Bool.and_eq_true, decide_eq_true_iff, decide_eq_true_iff]

theorem chunkFits_iff {data : List Byte} : chunkFits data = true ↔ data.length = blockLen := decide_eq_true_iff

theorem stopFits_iff {unused : List Byte} : stopFits unused = true ↔ blockLen ≤ unused.length := decide_eq_true_iff

/-! What the decoder answers is an instruction some encoding gives. Messages are the exception: a request may hold a message
longer than any packet can carry (`tailFits`). -/

/-- R91: a byte-sequence operand is no longer than its 4-byte length field can say. -/
theorem decodeBytes_fits {bs data rest : List Byte} (h : decodeBytes bs = .ok (data, rest)) :
    callLengthFits data = true := by
  unfold decodeBytes at h
  split at h
  · rename_i l0 l1 l2 l3 t
    have hn := (le32 l0 l1 l2 l3).isLt
    simp only at h
    split at h
    · cases h
      rw [callLengthFits_iff, List.length_take]
      omega
    · cases h
  · cases h

/-- An operation whose length check is that of its one byte-sequence operand is decoded well-formed. -/
theorem decodeBytesCall_wellFormed {mk : List Byte → Instr} {bs left : List Byte} {i : Instr}
    (hmk : ∀ data, (mk data).wellFormed = callLengthFits data) (h : decodeBytesCall mk bs = .ok (i, left)) :
    WellFormed i := by
  unfold decodeBytesCall at h
  split at h
  · cases h
    exact (hmk _).trans (decodeBytes_fits ‹_›)
  · cases h

theorem decodeBuildCall_wellFormed {bs left : List Byte} {i : Instr} (h : decodeBuildCall bs = .ok (i, left)) :
    WellFormed i := by
  unfold decodeBuildCall at h
  split at h
  · exact decodeBytesCall_wellFormed (fun _ => rfl) h
  · cases h

theorem decodeCall_wellFormed {bs left : List Byte} {i : Instr} (h : decodeCall bs = .ok (i, left)) : WellFormed i := by
  cases bs with
  | nil => cases h
  | cons sel bs =>
    simp only [decodeCall] at h
    split at h
    -- XOR_APPLY, CRC16, DISP_INGEST, CMD_INGEST
    case h_1 | h_5 | h_6 | h_11 => exact decodeBytesCall_wellFormed (fun _ => rfl) h
    -- PKT_BUILD
    case h_9 => exact decodeBuildCall_wellFormed h
    -- CRC_BYTE, DISP_PIXEL
    case h_3 | h_7 => split at h <;> cases h; rfl
    -- CRC_INIT, CRC_READ, DISP_READ, PKT_FETCH, RESET
    case h_2 | h_4 | h_8 | h_10 | h_12 => cases h; rfl
    -- an unlisted selector
    case h_13 => cases h

theorem frameClass_eq_screenshot {type : Byte} {n : Nat} (h : frameClass type n = .screenshot) :
    type = typeScreenshot := by
  unfold frameClass at h
  split_ifs at h with hs
  exact hs.1

theorem frameClass_eq_diff {type : Byte} {n : Nat} (h : frameClass type n = .diff) : type = typeDiff := by
  unfold frameClass at h
  split_ifs at h with _ hd
  exact hd.1

/-- R63, R64: the row of a frame whose size fits its field. -/
theorem frameInstr_wellFormed (type : Byte) (payload : List Byte) (h : payload.length < 65536) :
    WellFormed (frameInstr type payload) := by
  unfold frameInstr
  cases hc : frameClass type payload.length with
  | screenshot =>
    obtain rfl := frameClass_eq_screenshot hc
    exact frameFits_iff.mpr ⟨hc, h⟩
  | diff =>
    obtain rfl := frameClass_eq_diff hc
    exact frameFits_iff.mpr ⟨hc, h⟩
  | unknown => exact frameFits_iff.mpr ⟨hc, h⟩

theorem decodeFrame_wellFormed {bs left : List Byte} {i : Instr} (h : decodeFrame bs = .ok (i, left)) :
    WellFormed i := by
  unfold decodeFrame at h
  split at h
  · rename_i s0 s1 t
    have hn := (be16 s0 s1).isLt
    simp only at h
    split_ifs at h
    cases h
    exact frameInstr_wellFormed _ _ (by rw [List.length_take]; omega)
  · cases h

theorem decodeChunk_wellFormed {bs left : List Byte} {i : Instr} (h : decodeChunk bs = .ok (i, left)) :
    WellFormed i := by
  unfold decodeChunk at h
  split at h
  · cases h
  · split_ifs at h <;> cases h
    · exact chunkFits_iff.mpr (by rw [List.length_take]; omega)
    · exact stopFits_iff.mpr (by omega)

theorem decodePacket_wellFormed {bs left : List Byte} {i : Instr} (h : decodePacket bs = .ok (i, left)) :
    WellFormed i := by
  unfold decodePacket at h
  split at h
  · rename_i l0 l1 t
    have hn := (le16 l0 l1).isLt
    simp only at h
    split_ifs at h
    split at h
    · rename_i hd
      cases h
      have hl := congrArg List.length hd
      simp only [List.length_drop, List.length_cons] at hl
      exact regionFits_iff.mpr (by rw [List.length_take]; omega)
    · cases h
  · cases h

theorem decodeRaw_eq_ok {bs left : List Byte} {i : Instr} (h : decodeRaw bs = .ok (i, left)) : i = .keepalive := by
  unfold decodeRaw at h
  split at h
  · split_ifs at h
    cases h
    rfl
  · cases h

theorem messageInstr_format (type : Word) (tail : MsgTail) : (messageInstr type tail).format = .message := by
  unfold messageInstr
  split_ifs <;> rfl

theorem decodeMessage_format {bs left : List Byte} {i : Instr} (h : decodeMessage bs = .ok (i, left)) :
    i.format = .message := by
  unfold decodeMessage at h
  split at h
  · cases h
    exact messageInstr_format _ _
  · cases h

/-- Under every format but that of messages, the decoder answers only what some encoding gives. -/
theorem decode_wellFormed_or_message {f : Format} {bs left : List Byte} {i : Instr} (h : decode f bs = .ok (i, left)) :
    WellFormed i ∨ i.format = .message := by
  cases f with
  | call => exact .inl (decodeCall_wellFormed h)
  | displayFrame => exact .inl (decodeFrame_wellFormed h)
  | diffChunk => exact .inl (decodeChunk_wellFormed h)
  | commandPacket => exact .inl (decodePacket_wellFormed h)
  | message => exact .inr (decodeMessage_format h)
  | raw =>
    obtain rfl := decodeRaw_eq_ok h
    exact .inl rfl

end Sys2Proof

namespace Sys2Proof.Machine

/-! What a step can do. -/

@[simp] theorem fetch_nil : fetch [] = .idle := rfl

/-- What a step runs was decoded from the first request. -/
theorem fetch_eq_run {inbox q : List Request} {i : Instr} (h : fetch inbox = .run i q) :
    ∃ r others left, inbox = r :: others ∧ decode r.format r.bytes = .ok (i, left) ∧
      q = requeue r.format left others := by
  cases inbox with
  | nil => cases h
  | cons r others =>
    simp only [fetch] at h
    split_ifs at h
    split at h <;> cases h
    exact ⟨r, others, _, rfl, ‹_›, rfl⟩

/-- Everything a step that does not stop can do: idle, drop an empty request, run an instruction, refuse a selector. -/
theorem step_cases {s t : State} (h : step s = .next t) :
    (fetch s.inbox = .idle ∧ t = s) ∨
    (∃ q, fetch s.inbox = .spent q ∧ t = s.withInbox q) ∨
    (∃ i q, fetch s.inbox = .run i q ∧ exec i (s.withInbox q) = .next t) ∨
    (∃ sel q, fetch s.inbox = .unlisted sel q ∧ t = (s.withInbox q).reply (.badSelector sel)) := by
  unfold step at h
  cases hf : fetch s.inbox with
  | idle => rw [hf] at h; cases h; exact .inl ⟨rfl, rfl⟩
  | spent q => rw [hf] at h; cases h; exact .inr (.inl ⟨q, rfl, rfl⟩)
  | run i q => rw [hf] at h; exact .inr (.inr (.inl ⟨i, q, rfl, h⟩))
  | unlisted sel q => rw [hf] at h; cases h; exact .inr (.inr (.inr ⟨sel, q, rfl, rfl⟩))
  | stop e => rw [hf] at h; cases h

/-! No meaning reads or writes the inbox. -/

theorem mapNext_eq_next {f : State → State} {r : Result} {t : State} (h : mapNext f r = .next t) :
    ∃ u, r = .next u ∧ f u = t := by
  cases r <;> cases h
  exact ⟨_, rfl, rfl⟩

theorem mapNext_whenFormed (f : State → State) (ok : Bool) (r : Result) :
    mapNext f (whenFormed ok r) = whenFormed ok (mapNext f r) := by cases ok <;> rfl

theorem execDispIngest_withInbox (data : List Byte) (s : State) (q : List Request) :
    execDispIngest data (s.withInbox q) = mapNext (·.withInbox q) (execDispIngest data s) := by
  unfold execDispIngest
  rw [apply_ite (mapNext _)]
  rfl

theorem execCmdIngest_withInbox (data : List Byte) (s : State) (q : List Request) :
    execCmdIngest data (s.withInbox q) = mapNext (·.withInbox q) (execCmdIngest data s) := by
  unfold execCmdIngest
  rw [apply_ite (mapNext _)]
  rfl

/-- Running an instruction with other requests waiting gives the same outcome, those requests still waiting. -/
theorem exec_withInbox (i : Instr) (s : State) (q : List Request) :
    exec i (s.withInbox q) = mapNext (·.withInbox q) (exec i s) := by
  cases i with
  | dispIngest data => exact execDispIngest_withInbox data s q
  | cmdIngest data => exact execCmdIngest_withInbox data s q
  | dispPixel x y => simp only [exec, execDispPixel, apply_ite (mapNext _)]; rfl
  | pktBuild type payload => simp only [exec, execPktBuild, apply_ite (mapNext _)]; rfl
  | dispScreenshot payload => simp only [exec, execDispScreenshot, mapNext_whenFormed, execDispIngest_withInbox]
  | dispDiff payload => simp only [exec, execDispDiff, mapNext_whenFormed, execDispIngest_withInbox]
  | dispUnknown type payload => simp only [exec, execDispUnknown, mapNext_whenFormed, execDispIngest_withInbox]
  | diffChunk block data => simp only [exec, execDiffChunk, mapNext_whenFormed, execDispIngest_withInbox]
  | diffStop block unused => simp only [exec, execDiffStop, mapNext_whenFormed, execDispIngest_withInbox]
  | cmdPacket region foot0 foot1 => simp only [exec, execCmdPacket, mapNext_whenFormed, execCmdIngest_withInbox]
  | _ => rfl

/-! Requests and replies are the host's side: changing them leaves the block the same. -/

theorem State.sameBlock_refl (s : State) : SameBlock s s := ⟨rfl, rfl, rfl, rfl, rfl⟩

theorem State.sameBlock_withInbox (s : State) (q : List Request) : SameBlock s (s.withInbox q) :=
  ⟨rfl, rfl, rfl, rfl, rfl⟩

theorem State.sameBlock_reply (s : State) (r : Reply) : SameBlock s (s.reply r) := ⟨rfl, rfl, rfl, rfl, rfl⟩

/-! The operation of R90 that a row of the opcode table runs as (log entries 4 to 7). -/

theorem whenFormed_of_formed {ok : Bool} (h : ok = true) (r : Result) : whenFormed ok r = r := by
  rw [h, whenFormed_true]

theorem exec_of_displayFrame {i : Instr} (s : State) (hw : WellFormed i) (hf : i.format = .displayFrame) :
    exec i s = exec (.dispIngest (encode i)) s := by
  cases i <;> cases hf
  case dispScreenshot payload => exact whenFormed_of_formed hw _
  case dispDiff payload => exact whenFormed_of_formed hw _
  case dispUnknown type payload => exact whenFormed_of_formed hw _

/-- R63, R66: the bytes of a Diff frame of one chunk. -/
theorem frameBytes_typeDiff_of_chunkLen {chunk : List Byte} (h : chunk.length = 9) :
    frameBytes typeDiff chunk = [0xAA#8, 0x55#8, 0x02#8, 0x00#8, 0x09#8] ++ chunk := by
  rw [frameBytes, h]
  rfl

theorem exec_of_diffChunk {i : Instr} (s : State) (hw : WellFormed i) (hf : i.format = .diffChunk) :
    exec i s = exec (.dispIngest ([0xAA#8, 0x55#8, 0x02#8, 0x00#8, 0x09#8] ++ (encode i).take 9)) s := by
  cases i <;> cases hf
  case diffChunk block data =>
    have hl : data.length = 8 := chunkFits_iff.mp hw
    have ht : (encode (.diffChunk block data)).take 9 = chunkBytes 0#1 block data :=
      List.take_of_length_le (by simp [encode, chunkBytes, hl])
    rw [ht, ← frameBytes_typeDiff_of_chunkLen (by simp [chunkBytes, hl])]
    exact whenFormed_of_formed hw _
  case diffStop block unused =>
    have hl : 8 ≤ unused.length := stopFits_iff.mp hw
    have ht : (encode (.diffStop block unused)).take 9 = chunkBytes 1#1 block (unused.take blockLen) := rfl
    rw [ht, ← frameBytes_typeDiff_of_chunkLen (by simp [chunkBytes, blockLen, hl])]
    exact whenFormed_of_formed hw _

theorem exec_of_commandPacket {i : Instr} (s : State) (hw : WellFormed i) (hf : i.format = .commandPacket) :
    exec i s = exec (.cmdIngest (encode i)) s := by
  cases i <;> cases hf
  case cmdPacket region foot0 foot1 => exact whenFormed_of_formed hw _

/-- The operation of R90 that an instruction runs as; messages and keepalive run as none. -/
def operationOf (i : Instr) : Option Instr :=
  match i.format with
  | .call => some i
  | .displayFrame => some (.dispIngest (encode i))
  | .diffChunk => some (.dispIngest ([0xAA#8, 0x55#8, 0x02#8, 0x00#8, 0x09#8] ++ (encode i).take 9))
  | .commandPacket => some (.cmdIngest (encode i))
  | .message => none
  | .raw => none

theorem operationOf_format {i op : Instr} (h : operationOf i = some op) : op.format = .call := by
  unfold operationOf at h
  split at h <;> cases h
  case h_1 => assumption
  all_goals rfl

theorem callLengthFits_frameBytes {c : FrameClass} {type : Byte} {payload : List Byte}
    (h : frameFits c type payload = true) : callLengthFits (frameBytes type payload) = true := by
  obtain ⟨-, hl⟩ := frameFits_iff.mp h
  rw [callLengthFits_iff, frameBytes_length]
  omega

theorem callLengthFits_packetBytes {region : List Byte} (foot0 foot1 : Byte) (h : regionFits region = true) :
    callLengthFits (packetBytes region foot0 foot1) = true := by
  obtain ⟨-, hl⟩ := regionFits_iff.mp h
  rw [callLengthFits_iff, packetBytes_length]
  omega

/-- A frame, chunk or packet fits the operand of the ingest it runs as. -/
theorem operationOf_wellFormed {i op : Instr} (hw : WellFormed i) (h : operationOf i = some op) : WellFormed op := by
  unfold operationOf at h
  split at h <;> cases h
  case h_1 => exact hw
  case h_2 hf =>
    cases i <;> cases hf
    all_goals exact callLengthFits_frameBytes hw
  case h_3 =>
    refine callLengthFits_iff.mpr ?_
    simp only [List.length_append, List.length_take, List.length_cons, List.length_nil]
    omega
  case h_4 hf =>
    cases i <;> cases hf
    exact callLengthFits_packetBytes _ _ hw

/-- R1: a well-formed row runs as its operation, in every state. -/
theorem exec_eq_exec_operationOf {i op : Instr} (s : State) (hw : WellFormed i) (h : operationOf i = some op) :
    exec i s = exec op s := by
  unfold operationOf at h
  split at h <;> cases h
  case h_1 => rfl
  case h_2 hf => exact exec_of_displayFrame s hw hf
  case h_3 hf => exact exec_of_diffChunk s hw hf
  case h_4 hf => exact exec_of_commandPacket s hw hf

theorem operationOf_of_message {i : Instr} (h : i.format = .message) : operationOf i = none := by
  rw [operationOf, h]

/-- R77, R89: what runs as no operation, a message or keepalive, leaves the block the same. -/
theorem exec_sameBlock_of_operationOf_none {i : Instr} {s t : State} (h : operationOf i = none)
    (hx : exec i s = .next t) : SameBlock s t := by
  cases i <;> cases h <;> cases hx
  case keepalive => exact s.sameBlock_refl
  all_goals exact State.sameBlock_reply s _

/-- R1: an instruction taken off a request leaves the block the same, or as an operation of R90 does. -/
theorem exec_decoded_sameBlock_or_operation {f : Format} {bs left : List Byte} {i : Instr} {s t : State}
    {q : List Request} (hd : decode f bs = .ok (i, left)) (hx : exec i (s.withInbox q) = .next t) :
    SameBlock s t ∨
      ∃ op u, op.format = .call ∧ WellFormed op ∧ exec op s = .next u ∧ SameBlock u t ∧ t.replies = u.replies := by
  cases hop : operationOf i with
  | none => exact .inl (exec_sameBlock_of_operationOf_none (s := s.withInbox q) hop hx)
  | some op =>
    have hw : WellFormed i := (decode_wellFormed_or_message hd).resolve_right fun hm => by
      rw [operationOf_of_message hm] at hop
      cases hop
    rw [exec_eq_exec_operationOf _ hw hop, exec_withInbox] at hx
    obtain ⟨u, hu, rfl⟩ := mapNext_eq_next hx
    exact .inr ⟨op, u, operationOf_format hop, operationOf_wellFormed hw hop, hu, u.sameBlock_withInbox q, rfl⟩

end Sys2Proof.Machine

namespace Sys2Proof.Proofs

open Machine

/-- Settles O60: a step changes the block only when it runs an instruction, and each row runs as its operation. -/
theorem onlyAnOperationChangesTheBlock : Obligations.OnlyAnOperationChangesTheBlock := by
  intro s t h
  obtain ⟨-, rfl⟩ | ⟨q, -, rfl⟩ | ⟨i, q, hf, hx⟩ | ⟨sel, q, -, rfl⟩ := step_cases h
  · exact .inl t.sameBlock_refl
  · exact .inl (s.sameBlock_withInbox q)
  · obtain ⟨r, others, left, -, hd, -⟩ := fetch_eq_run hf
    exact exec_decoded_sameBlock_or_operation hd hx
  · exact .inl ((s.withInbox q).sameBlock_reply _)

/-- Settles O2: with an empty inbox the fetch is idle. -/
theorem idleBlockDoesNotChange : Obligations.IdleBlockDoesNotChange := by
  intro s h
  rw [step, h, fetch_nil]

/-- Settles O38, one wire format at a time. -/
theorem wireRowsAreTheOperationsThatReadThem : Obligations.WireRowsAreTheOperationsThatReadThem := by
  intro s i hw
  exact ⟨exec_of_displayFrame s hw, exec_of_diffChunk s hw, exec_of_commandPacket s hw⟩

end Sys2Proof.Proofs
end

section
/-! Proofs for the state statements (10_state.md R20 to R29): what an instruction can do to the whole state, said once, and
that neither ingest's loop leaves a complete frame or packet behind. -/

namespace Sys2Proof.Machine

/-! What a completed ingest has done. -/

theorem execDispIngest_eq_next {data : List Byte} {s t : State} (h : execDispIngest data s = .next t) :
    t = s.reply .capacityExceeded ∧ s.params.dispRxCap < s.dispRx.length + data.length ∨
    t = ((s.withDispRx (dispDrain (s.dispRx ++ data) s.bitmap).rx).withBitmap
        (dispDrain (s.dispRx ++ data) s.bitmap).bitmap).reply (.events (dispDrain (s.dispRx ++ data) s.bitmap).events) ∧
      s.dispRx.length + data.length ≤ s.params.dispRxCap := by
  obtain ⟨hcap, hx⟩ | ⟨hcap, hx⟩ := execDispIngest_cases data s <;> cases hx.symm.trans h
  · exact .inl ⟨rfl, hcap⟩
  · exact .inr ⟨rfl, hcap⟩

theorem execCmdIngest_eq_next {data : List Byte} {s t : State} (h : execCmdIngest data s = .next t) :
    t = s.reply .capacityExceeded ∧ s.params.cmdRxCap < s.cmdRx.length + data.length ∨
    t = (s.withCmdRx (cmdDrain s.params (s.cmdRx ++ data)).rx).reply
        (.fetches (cmdDrain s.params (s.cmdRx ++ data)).results) ∧
      s.cmdRx.length + data.length ≤ s.params.cmdRxCap := by
  obtain ⟨hcap, hx⟩ | ⟨hcap, hx⟩ := execCmdIngest_cases data s <;> cases hx.symm.trans h
  · exact .inl ⟨rfl, hcap⟩
  · exact .inr ⟨rfl, hcap⟩

/-! What an instruction that completes has done. -/

/-- DISP_INGEST, or a row that runs as it (log entry 4). -/
abbrev IngestsDisplay (i : Instr) : Prop :=
  (∃ d, i = .dispIngest d) ∨ i.format = .displayFrame ∨ i.format = .diffChunk

/-- CMD_INGEST, or the row that runs as it (log entry 5). -/
abbrev IngestsCommand (i : Instr) : Prop := (∃ d, i = .cmdIngest d) ∨ i.format = .commandPacket

/-- The next states that instruction `i` can give from `s`. -/
inductive Effect (s : State) (i : Instr) : State → Prop where
  /-- KEEPALIVE: nothing at all (R89). -/
  | unchanged : Effect s i s
  /-- A reply and nothing else: the operations that only compute, the messages and every refusal (R204). -/
  | answered (r : Reply) : Effect s i (s.reply r)
  /-- CRC_INIT and CRC_BYTE (R114, R115). -/
  | crcWritten (v : Word) (hi : i = .crcInit ∨ ∃ b, i = .crcByte b) : Effect s i ((s.withCrcReg v).reply .done)
  /-- Display bytes within the cap (R47, R130). -/
  | displayIngested (data : List Byte) (hi : IngestsDisplay i)
      (hcap : s.dispRx.length + data.length ≤ s.params.dispRxCap) :
      Effect s i (((s.withDispRx (dispDrain (s.dispRx ++ data) s.bitmap).rx).withBitmap
        (dispDrain (s.dispRx ++ data) s.bitmap).bitmap).reply (.events (dispDrain (s.dispRx ++ data) s.bitmap).events))
  /-- PKT_FETCH (R172). -/
  | fetched (hi : i = .pktFetch) :
      Effect s i ((s.withCmdRx (fetchPacket s.params s.cmdRx).rx).reply (.fetch (fetchPacket s.params s.cmdRx).result))
  /-- Command bytes within the cap (R47, R186). -/
  | commandIngested (data : List Byte) (hi : IngestsCommand i)
      (hcap : s.cmdRx.length + data.length ≤ s.params.cmdRxCap) :
      Effect s i ((s.withCmdRx (cmdDrain s.params (s.cmdRx ++ data)).rx).reply
        (.fetches (cmdDrain s.params (s.cmdRx ++ data)).results))
  /-- RESET (R220). -/
  | blockReset (hi : i = .reset) :
      Effect s i (((((s.withCrcReg 0x0000#16).withBitmap []).withDispRx []).withCmdRx []).reply .done)

theorem Effect.of_execDispIngest {i : Instr} {data : List Byte} {s t : State} (hi : IngestsDisplay i)
    (h : execDispIngest data s = .next t) : Effect s i t := by
  obtain ⟨rfl, -⟩ | ⟨rfl, hcap⟩ := execDispIngest_eq_next h
  · exact .answered _
  · exact .displayIngested data hi hcap

theorem Effect.of_execCmdIngest {i : Instr} {data : List Byte} {s t : State} (hi : IngestsCommand i)
    (h : execCmdIngest data s = .next t) : Effect s i t := by
  obtain ⟨rfl, -⟩ | ⟨rfl, hcap⟩ := execCmdIngest_eq_next h
  · exact .answered _
  · exact .commandIngested data hi hcap

/-- The effect of every instruction that completes. -/
theorem exec_effect {i : Instr} {s t : State} (h : exec i s = .next t) : Effect s i t := by
  cases i with
  | keepalive => cases h; exact .unchanged
  | crcInit => cases h; exact .crcWritten _ (.inl rfl)
  | crcByte b => cases h; exact .crcWritten _ (.inr ⟨b, rfl⟩)
  | pktFetch => cases h; exact .fetched rfl
  | reset => cases h; exact .blockReset rfl
  | dispIngest d => exact .of_execDispIngest (.inl ⟨d, rfl⟩) h
  | dispScreenshot | dispDiff | dispUnknown =>
    exact .of_execDispIngest (.inr (.inl rfl)) (whenFormed_eq_next h).2
  | diffChunk | diffStop => exact .of_execDispIngest (.inr (.inr rfl)) (whenFormed_eq_next h).2
  | cmdIngest d => exact .of_execCmdIngest (.inl ⟨d, rfl⟩) h
  | cmdPacket => exact .of_execCmdIngest (.inr rfl) (whenFormed_eq_next h).2
  | dispPixel x y =>
    simp only [exec, execDispPixel] at h
    split at h <;> cases h <;> exact .answered _
  | pktBuild type payload =>
    simp only [exec, execPktBuild] at h
    split at h <;> cases h <;> exact .answered _
  | xorApply | crcRead | crc16 | dispRead | msgSessionInit | msgSessionInfo | msgButtonEvent | msgButtonAck | msgOther =>
    cases h
    exact .answered _

/-! What an effect leaves unchanged, part by part. -/

section
variable {i : Instr} {s t : State}

/-- R21, R29. -/
theorem Effect.params_eq (h : Effect s i t) : t.params = s.params := by cases h <;> rfl

theorem Effect.inbox_eq (h : Effect s i t) : t.inbox = s.inbox := by cases h <;> rfl

theorem Effect.replies_eq (h : Effect s i t) : ∃ rs, t.replies = s.replies ++ rs ∧ rs.length ≤ 1 := by
  cases h with
  | unchanged => exact ⟨[], (List.append_nil _).symm, Nat.zero_le 1⟩
  | _ => exact ⟨_, rfl, le_rfl⟩

/-- R20: CRC_REG stays, or the instruction is one of those that write it. -/
theorem Effect.crcReg_eq_or (h : Effect s i t) :
    t.crcReg = s.crcReg ∨ (i = .crcInit ∨ ∃ b, i = .crcByte b) ∨ i = .reset := by
  cases h with
  | crcWritten v hi => exact .inr (.inl hi)
  | blockReset hi => exact .inr (.inr hi)
  | _ => exact .inl rfl

/-- R22, R23: DISP_RX and BITMAP both stay, or the instruction is one of those that write them. -/
theorem Effect.display_eq_or (h : Effect s i t) :
    (t.dispRx = s.dispRx ∧ t.bitmap = s.bitmap) ∨ IngestsDisplay i ∨ i = .reset := by
  cases h with
  | displayIngested data hi hcap => exact .inr (.inl hi)
  | blockReset hi => exact .inr (.inr hi)
  | _ => exact .inl ⟨rfl, rfl⟩

/-- R24: CMD_RX stays, or the instruction is one of those that write it. -/
theorem Effect.cmdRx_eq_or (h : Effect s i t) :
    t.cmdRx = s.cmdRx ∨ IngestsCommand i ∨ i = .pktFetch ∨ i = .reset := by
  cases h with
  | commandIngested data hi hcap => exact .inr (.inl hi)
  | fetched hi => exact .inr (.inr (.inl hi))
  | blockReset hi => exact .inr (.inr (.inr hi))
  | _ => exact .inl rfl

end

/-! The loops leave settled buffers. -/

/-- R132 to R136: what a pass leaves when it returns is no complete frame. -/
theorem dispPass_stop_settled {rx rx' : List Byte} (h : dispPass rx = .stop rx') : DispSettled rx' := by
  obtain ⟨hl, hp⟩ | ⟨-, -, hp⟩ | ⟨k, -, hk, hp⟩ := dispPass_cases rx
  · cases hp.symm.trans h
    exact .inl hl
  · cases hp.symm.trans h
    exact .inl (by rw [keepLast_length]; omega)
  · obtain ⟨he, hshort⟩ | ⟨he, -⟩ := dispExtract_cases (rx.drop k) <;> cases (hp.trans he).symm.trans h
    obtain ⟨-, h0, h1, -⟩ := find2_some hk
    exact hshort.imp_right fun hl => ⟨by rwa [byteOf_drop], by rwa [byteOf_drop], hl⟩

/-- R26: the display loop goes on until no complete frame is left. -/
theorem dispDrain_settled (rx : List Byte) (m : Memory) : DispSettled (dispDrain rx m).rx := by
  induction rx, m using dispDrain_induction with
  | stop rx m rx' hp => rw [dispDrain_eq, hp]; exact dispPass_stop_settled hp
  | frame rx m type payload rest hp ih => rw [dispDrain_eq, hp]; exact ih

theorem partialHeader_length_le_one (rx : List Byte) : (partialHeader rx).length ≤ 1 := by
  unfold partialHeader
  split
  · rw [keepLast_length]
    omega
  · exact Nat.zero_le 1

/-- R173 to R176: what an attempt that needs more leaves is no complete packet. -/
theorem fetchPacket_needMore_settled {p : Params} {rx : List Byte} (h : (fetchPacket p rx).result = .needMore) :
    CmdSettled (fetchPacket p rx).rx := by
  obtain ⟨hl, hf⟩ | ⟨-, -, hf⟩ | ⟨k, -, hk, hf⟩ := fetchPacket_cases p rx
  · rw [hf]
    exact .inl hl
  · have := partialHeader_length_le_one rx
    rw [hf]
    exact .inl (by simp only; omega)
  · rw [hf] at h ⊢
    obtain ⟨he, hshort⟩ | ⟨-, -, he⟩ | ⟨-, -, -, he⟩ := pktExtract_cases p (rx.drop k) <;> rw [he] at h ⊢
    · obtain ⟨-, h0, h1, -⟩ := find2_some hk
      exact hshort.imp_right fun hl => ⟨by rwa [byteOf_drop], by rwa [byteOf_drop], hl⟩
    · cases h
    · exact absurd h (openRegion_ne_needMore _ _ _)

/-- R27: the command loop goes on until no complete packet is left. -/
theorem cmdDrain_settled (p : Params) (rx : List Byte) : CmdSettled (cmdDrain p rx).rx := by
  induction rx using cmdDrain_induction p with
  | stop rx h => rw [cmdDrain_eq, if_pos h]; exact fetchPacket_needMore_settled h
  | go rx h ih => rw [cmdDrain_eq, if_neg h]; exact ih

/-! The invariant. -/

/-- R22 to R24, R26: every effect keeps the invariant. -/
theorem Effect.inv {i : Instr} {s t : State} (h : Effect s i t) (hs : s.Inv) : t.Inv := by
  obtain ⟨hbitmap, hdisp, hcmd, hsettled, hparams⟩ := hs
  cases h with
  | displayIngested data hi hcap =>
    have hlen := dispDrain_length (s.dispRx ++ data) s.bitmap
    rw [List.length_append] at hlen
    exact ⟨dispDrain_wf _ hbitmap, hlen.trans hcap, hcmd, dispDrain_settled _ _, hparams⟩
  | fetched hi => exact ⟨hbitmap, hdisp, (fetchPacket_length _ _).trans hcmd, hsettled, hparams⟩
  | commandIngested data hi hcap =>
    have hlen := cmdDrain_length s.params (s.cmdRx ++ data)
    rw [List.length_append] at hlen
    exact ⟨hbitmap, hdisp, hlen.trans hcap, hsettled, hparams⟩
  | blockReset hi => exact ⟨Memory.wf_nil, Nat.zero_le _, Nat.zero_le _, .inl (Nat.zero_lt_succ _), hparams⟩
  | unchanged | answered | crcWritten => exact ⟨hbitmap, hdisp, hcmd, hsettled, hparams⟩

/-! An ingest does not see the other parser's buffer. -/

theorem execDispIngest_withCmdRx (data : List Byte) (s : State) (q : List Byte) :
    execDispIngest data (s.withCmdRx q) = mapNext (·.withCmdRx q) (execDispIngest data s) := by
  unfold execDispIngest
  rw [apply_ite (mapNext _)]
  rfl

theorem execCmdIngest_withDispRx (data : List Byte) (s : State) (q : List Byte) :
    execCmdIngest data (s.withDispRx q) = mapNext (·.withDispRx q) (execCmdIngest data s) := by
  unfold execCmdIngest
  rw [apply_ite (mapNext _)]
  rfl

end Sys2Proof.Machine

namespace Sys2Proof.Proofs

open Machine

/-- Settles O10: neither the inbox nor the replies enter the invariant, and every instruction's effect keeps it. -/
theorem everyStepKeepsTheInvariant : Obligations.EveryStepKeepsTheInvariant := by
  intro s t hs h
  obtain ⟨-, rfl⟩ | ⟨q, -, rfl⟩ | ⟨i, q, -, hx⟩ | ⟨sel, q, -, rfl⟩ := step_cases h
  · exact hs
  · exact hs
  · exact (exec_effect hx).inv hs
  · exact hs

/-- Settles O13: part by part from the effect of the instruction. -/
theorem onlyTheNamedInstructionsChangeEachPart : Obligations.OnlyTheNamedInstructionsChangeEachPart := by
  intro i s t h
  have he := exec_effect h
  refine ⟨he.params_eq, he.inbox_eq, he.replies_eq, fun hne => ?_, fun hne => ?_, fun hne => ?_, fun ⟨a, ha⟩ => ?_⟩
  · exact or_assoc.mp (he.crcReg_eq_or.resolve_left hne)
  · have hi := he.display_eq_or.resolve_left fun heq => hne heq.1
    simpa only [or_assoc] using hi
  · have hi := he.cmdRx_eq_or.resolve_left hne
    tauto
  · have hi := he.display_eq_or.resolve_left fun heq => ha (by rw [heq.2])
    simpa only [or_assoc] using hi

/-- Settles O14: taking a request off the inbox writes no parameter, nor does any instruction's effect. -/
theorem noStepWritesTheKey : Obligations.NoStepWritesTheKey := by
  intro s t h
  obtain ⟨-, rfl⟩ | ⟨q, -, rfl⟩ | ⟨i, q, -, hx⟩ | ⟨sel, q, -, rfl⟩ := step_cases h
  · rfl
  · rfl
  · exact (exec_effect hx).params_eq
  · rfl

/-- Settles O17: each operation on one buffer commutes with replacing the other. -/
theorem theReceiveBuffersAreSeparate : Obligations.TheReceiveBuffersAreSeparate :=
  ⟨execDispIngest_withCmdRx, execCmdIngest_withDispRx, fun _ _ => rfl⟩

/-- Settles O41: an ingest within the cap leaves what the loop leaves; a refused one leaves DISP_RX as it was. -/
theorem dispRxIsSettledAfterIngest : Obligations.DispRxIsSettledAfterIngest := by
  intro s t d h hs
  obtain ⟨rfl, hcap⟩ | ⟨rfl, -⟩ := execDispIngest_eq_next h
  · exact hs.resolve_right (by omega)
  · exact dispDrain_settled _ _

/-- Settles O52: an ingest within the cap leaves what the loop leaves. -/
theorem cmdRxIsSettledAfterIngest : Obligations.CmdRxIsSettledAfterIngest := by
  intro s t d h hcap
  obtain ⟨rfl, hover⟩ | ⟨rfl, -⟩ := execCmdIngest_eq_next h
  · omega
  · exact cmdDrain_settled _ _

end Sys2Proof.Proofs
end

section
/-! Proofs for the memory statements (20_memory.md R43 to R53): what a step fetches, that replies are only added, the
values of assembled fields, and the two outcomes of an ingest. -/

namespace Sys2Proof.Machine

/-! What a step runs. -/

/-- The converse of `fetch_eq_run`: a first request that decodes is run. -/
theorem fetch_eq_run_of_decode {r : Request} {left : List Byte} {i : Instr} (others : List Request)
    (h : decode r.format r.bytes = .ok (i, left)) : fetch (r :: others) = .run i (requeue r.format left others) := by
  have hne : r.bytes ≠ [] := by
    intro hnil
    rw [hnil, decode_nil] at h
    cases h
  simp only [fetch, if_neg hne, h]

theorem step_eq_exec_of_fetch {s : State} {i : Instr} {q : List Request} (h : fetch s.inbox = .run i q) :
    step s = exec i (s.withInbox q) := by
  rw [step, h]

/-! Replies are only added. -/

theorem Effect.replies_prefix {s t : State} {i : Instr} (h : Effect s i t) : s.replies <+: t.replies := by
  obtain ⟨rs, hrs, -⟩ := h.replies_eq
  exact ⟨rs, hrs.symm⟩

/-! The two outcomes of an ingest (R47), each from its side of the cap. -/

theorem execDispIngest_of_over {data : List Byte} {s : State}
    (h : s.params.dispRxCap < s.dispRx.length + data.length) :
    execDispIngest data s = .next (s.reply .capacityExceeded) := by
  obtain ⟨-, hx⟩ | ⟨hfits, -⟩ := execDispIngest_cases data s
  · exact hx
  · omega

theorem execDispIngest_of_fits {data : List Byte} {s : State}
    (h : s.dispRx.length + data.length ≤ s.params.dispRxCap) :
    execDispIngest data s =
      .next (((s.withDispRx (dispDrain (s.dispRx ++ data) s.bitmap).rx).withBitmap
        (dispDrain (s.dispRx ++ data) s.bitmap).bitmap).reply (.events (dispDrain (s.dispRx ++ data) s.bitmap).events)) := by
  obtain ⟨hover, -⟩ | ⟨-, hx⟩ := execDispIngest_cases data s
  · omega
  · exact hx

/-- Within the cap, the bytes may as well stand at the end of DISP_RX already. -/
theorem execDispIngest_eq_nil_of_fits {data : List Byte} {s : State}
    (h : s.dispRx.length + data.length ≤ s.params.dispRxCap) :
    execDispIngest data s = execDispIngest [] (s.withDispRx (s.dispRx ++ data)) := by
  have hnil : (s.withDispRx (s.dispRx ++ data)).dispRx.length + ([] : List Byte).length ≤
      (s.withDispRx (s.dispRx ++ data)).params.dispRxCap := by simpa using h
  rw [execDispIngest_of_fits h, execDispIngest_of_fits hnil]
  simp

theorem execCmdIngest_of_over {data : List Byte} {s : State}
    (h : s.params.cmdRxCap < s.cmdRx.length + data.length) :
    execCmdIngest data s = .next (s.reply .capacityExceeded) := by
  obtain ⟨-, hx⟩ | ⟨hfits, -⟩ := execCmdIngest_cases data s
  · exact hx
  · omega

theorem execCmdIngest_of_fits {data : List Byte} {s : State}
    (h : s.cmdRx.length + data.length ≤ s.params.cmdRxCap) :
    execCmdIngest data s =
      .next ((s.withCmdRx (cmdDrain s.params (s.cmdRx ++ data)).rx).reply
        (.fetches (cmdDrain s.params (s.cmdRx ++ data)).results)) := by
  obtain ⟨hover, -⟩ | ⟨-, hx⟩ := execCmdIngest_cases data s
  · omega
  · exact hx

/-- Within the cap, the bytes may as well stand at the end of CMD_RX already. -/
theorem execCmdIngest_eq_nil_of_fits {data : List Byte} {s : State}
    (h : s.cmdRx.length + data.length ≤ s.params.cmdRxCap) :
    execCmdIngest data s = execCmdIngest [] (s.withCmdRx (s.cmdRx ++ data)) := by
  have hnil : (s.withCmdRx (s.cmdRx ++ data)).cmdRx.length + ([] : List Byte).length ≤
      (s.withCmdRx (s.cmdRx ++ data)).params.cmdRxCap := by simpa using h
  rw [execCmdIngest_of_fits h, execCmdIngest_of_fits hnil]
  simp

end Sys2Proof.Machine

namespace Sys2Proof.Proofs

open Machine

/-- Settles O15: a step takes from the inbox and adds replies behind those already given. -/
theorem noStepChangesAReplyAlreadyGiven : Obligations.NoStepChangesAReplyAlreadyGiven := by
  intro s t h
  obtain ⟨-, rfl⟩ | ⟨q, -, rfl⟩ | ⟨i, q, -, hx⟩ | ⟨sel, q, -, rfl⟩ := step_cases h
  · exact List.prefix_rfl
  · exact List.prefix_rfl
  · exact (exec_effect hx).replies_prefix
  · exact List.prefix_append _ _

/-- Settles O1: the fetch finds the decoded instruction, and what it leaves of the requests is `requeue`. -/
theorem stepRunsTheDecodedInstruction : Obligations.StepRunsTheDecodedInstruction := by
  intro s f bs left others i hinbox hdecode
  have hfetch : fetch s.inbox = .run i (requeue f left others) := by
    rw [hinbox]
    exact fetch_eq_run_of_decode (r := { format := f, bytes := bs }) others hdecode
  exact step_eq_exec_of_fetch hfetch

/-- Settles O9: each assembled field as a number, and an index below the length reads the byte there. -/
theorem fieldsAreAssembledInTheirByteOrder : Obligations.FieldsAreAssembledInTheirByteOrder := by
  intro s o h
  have ho : o < s.length := by omega
  refine ⟨le16_toNat _ _, be16_toNat _ _, ?_, ?_⟩
  · rw [le32At, le32_toNat]
    omega
  · rw [byteOf_eq_getElem s o ho, List.getElem?_eq_getElem ho]

/-- Settles O29: the two outcomes of each ingest. -/
theorem ingestAppendsWithinTheCap : Obligations.IngestAppendsWithinTheCap := by
  intro s d
  exact ⟨execDispIngest_of_over,
    fun h => ⟨execDispIngest_eq_nil_of_fits h, _, _, execDispIngest_of_fits h, rfl⟩,
    execCmdIngest_of_over,
    fun h => ⟨execCmdIngest_eq_nil_of_fits h, _, _, execCmdIngest_of_fits h, rfl⟩⟩

end Sys2Proof.Proofs
end

section
/-! Proofs for the encoding statements (30_encoding.md R60 to R92): the decoder reads back what the encoder writes, format by
format, a listing of calls runs line by line, and the fields of messages and payloads. -/

namespace Sys2Proof

open Machine

/-! Calls (R90, R91). -/

theorem decodeBytesCall_encodeBytes (mk : List Byte → Instr) {data : List Byte} (rest : List Byte)
    (h : callLengthFits data = true) : decodeBytesCall mk (encodeBytes data ++ rest) = .ok (mk data, rest) := by
  rw [decodeBytesCall, decodeBytes_encodeBytes data rest (callLengthFits_iff.mp h)]

theorem decodeBuildCall_encodeBytes (type : Word) {payload : List Byte} (rest : List Byte)
    (h : callLengthFits payload = true) :
    decodeBuildCall (le16Bytes type ++ encodeBytes payload ++ rest) = .ok (.pktBuild type payload, rest) := by
  have hread : decodeBuildCall (le16Bytes type ++ encodeBytes payload ++ rest) =
      decodeBytesCall (.pktBuild (le16 (lowByte type) (highByte type))) (encodeBytes payload ++ rest) := rfl
  rw [hread, decodeBytesCall_encodeBytes _ rest h, le16_lowByte_highByte]

/-- R91: a call reads back, whatever follows it. -/
theorem decodeCall_encode {i : Instr} (rest : List Byte) (hw : WellFormed i) (hf : i.format = .call) :
    decodeCall (encode i ++ rest) = .ok (i, rest) := by
  cases i <;> cases hf
  case xorApply | crc16 | dispIngest | cmdIngest => exact decodeBytesCall_encodeBytes _ rest hw
  case pktBuild type payload => exact decodeBuildCall_encodeBytes type rest hw
  case crcInit | crcByte | crcRead | dispPixel | dispRead | pktFetch | reset => rfl

/-! Display frames (R63, R64). -/

/-- R64 in numbers. -/
theorem frameClass_eq_ite (type : Byte) (n : Nat) :
    frameClass type n =
      if type = 1 ∧ n = 1024 then .screenshot else if type = 2 ∧ n % 9 = 0 then .diff else .unknown := rfl

theorem frameInstr_eq_ite (type : Byte) (payload : List Byte) :
    frameInstr type payload =
      if type = 1 ∧ payload.length = 1024 then .dispScreenshot payload
      else if type = 2 ∧ payload.length % 9 = 0 then .dispDiff payload
      else .dispUnknown type payload := by
  rw [frameInstr, frameClass_eq_ite]
  split_ifs <;> rfl

/-- R63: the size field, most significant byte first. -/
theorem be16Bytes_ofNat {n : Nat} (h : n < 65536) :
    be16Bytes (BitVec.ofNat 16 n) = [BitVec.ofNat 8 (n / 256), BitVec.ofNat 8 (n % 256)] := by
  have hhigh : highByte (BitVec.ofNat 16 n) = BitVec.ofNat 8 (n / 256) := by
    apply BitVec.eq_of_toNat_eq
    simp only [highByte, BitVec.extractLsb'_toNat, BitVec.toNat_ofNat, Nat.shiftRight_eq_div_pow]
    omega
  have hlow : lowByte (BitVec.ofNat 16 n) = BitVec.ofNat 8 (n % 256) := by
    apply BitVec.eq_of_toNat_eq
    simp only [lowByte, BitVec.extractLsb'_toNat, BitVec.toNat_ofNat, Nat.shiftRight_zero]
    omega
  rw [be16Bytes, hhigh, hlow]

/-- R63, R64: a frame reads back as its row, whatever follows it. -/
theorem decodeFrame_encode {i : Instr} (rest : List Byte) (hw : WellFormed i) (hf : i.format = .displayFrame) :
    decodeFrame (encode i ++ rest) = .ok (i, rest) := by
  cases i <;> cases hf
  all_goals
    obtain ⟨hc, hl⟩ := frameFits_iff.mp hw
    rw [encode, decodeFrame_frameBytes _ _ rest hl, frameInstr, hc]

/-! Diff chunks (R66): bit 7 of the block byte tells a stop marker. -/

theorem blockByte_toNat (stop : BitVec 1) (block : BitVec 7) :
    (stop ++ block : Byte).toNat = 128 * stop.toNat + block.toNat := by
  rw [BitVec.toNat_append, ← Nat.shiftLeft_add_eq_or_of_lt block.isLt, Nat.shiftLeft_eq]
  omega

@[simp] theorem blockByte_extractLsb' (stop : BitVec 1) (block : BitVec 7) :
    (stop ++ block : Byte).extractLsb' 0 7 = block := by
  apply BitVec.eq_of_toNat_eq
  rw [BitVec.extractLsb'_toNat, blockByte_toNat, Nat.shiftRight_zero]
  omega

/-- A chunk of 8 data bytes reads back, whatever follows it. -/
theorem decodeChunk_chunkBytes (block : BitVec 7) {data : List Byte} (rest : List Byte) (h : chunkFits data = true) :
    decodeChunk (chunkBytes 0#1 block data ++ rest) = .ok (.diffChunk block data, rest) := by
  have hl : data.length = blockLen := chunkFits_iff.mp h
  have hblock : (0#1 ++ block : Byte).toNat < 128 := by
    rw [blockByte_toNat, BitVec.toNat_zero]
    omega
  rw [chunkBytes, List.cons_append, decodeChunk, if_neg (by simp [hl]), if_pos hblock, blockByte_extractLsb',
    List.take_left' hl, List.drop_left' hl]

/-- R142: a stop marker takes all the bytes behind it. -/
theorem decodeChunk_stop (block : BitVec 7) {unused : List Byte} (h : stopFits unused = true) :
    decodeChunk (chunkBytes 1#1 block unused) = .ok (.diffStop block unused, []) := by
  have hl : ¬unused.length < blockLen := (stopFits_iff.mp h).not_gt
  have hblock : ¬(1#1 ++ block : Byte).toNat < 128 := by
    rw [blockByte_toNat]
    simp
  rw [chunkBytes, decodeChunk, if_neg hl, if_neg hblock, blockByte_extractLsb']

/-! Packets (R67). -/

theorem decodePacket_encode {i : Instr} (rest : List Byte) (hw : WellFormed i) (hf : i.format = .commandPacket) :
    decodePacket (encode i ++ rest) = .ok (i, rest) := by
  cases i <;> cases hf
  case cmdPacket region foot0 foot1 =>
    obtain ⟨h2, h⟩ := regionFits_iff.mp hw
    exact decodePacket_packetBytes region rest foot0 foot1 h2 h

/-! Messages (R69, R72, R77). -/

/-- A message is read under the row of its type. -/
theorem decodeMessage_messageBytes (type : Word) (tail : MsgTail) :
    decodeMessage (messageBytes type tail) = .ok (messageInstr type tail, []) := by
  have hread : decodeMessage (messageBytes type tail) =
      .ok (messageInstr (le16 (lowByte type) (highByte type)) (decodeTail (tailBytes tail)), []) := rfl
  rw [hread, le16_lowByte_highByte, decodeTail_tailBytes]

theorem messageInstr_of_unrecognised {type : Word} (tail : MsgTail) (h : recognisedType type = false) :
    messageInstr type tail = .msgOther type tail := by
  simp only [recognisedType, Bool.or_eq_false_iff, beq_eq_false_iff_ne] at h
  obtain ⟨⟨⟨hinit, hinfo⟩, hevent⟩, hack⟩ := h
  rw [messageInstr, if_neg hinit, if_neg hinfo, if_neg hevent, if_neg hack]

theorem decodeMessage_encode {i : Instr} (hw : WellFormed i) (hf : i.format = .message) :
    decodeMessage (encode i) = .ok (i, []) := by
  cases i <;> cases hf
  case msgOther type tail =>
    have hother : recognisedType type = false := by
      simpa using (Bool.and_eq_true_iff.mp hw).1
    rw [encode, decodeMessage_messageBytes, messageInstr_of_unrecognised tail hother]
  all_goals exact decodeMessage_messageBytes _ _

/-! Every format. -/

/-- R63, R66, R67, R89, R91: an instruction that ends where it ends reads back, whatever follows it. -/
theorem decode_encode_append {i : Instr} (rest : List Byte) (hw : WellFormed i)
    (h : i.format ∈ [Format.call, .displayFrame, .commandPacket, .raw] ∨ ∃ b d, i = .diffChunk b d) :
    decode i.format (encode i ++ rest) = .ok (i, rest) := by
  obtain hm | ⟨block, data, rfl⟩ := h
  · simp only [List.mem_cons, List.not_mem_nil, or_false] at hm
    obtain hf | hf | hf | hf := hm <;> rw [hf]
    · exact decodeCall_encode rest hw hf
    · exact decodeFrame_encode rest hw hf
    · exact decodePacket_encode rest hw hf
    · cases i <;> cases hf
      rfl
  · exact decodeChunk_chunkBytes block rest hw

/-- The other instructions, stop markers and messages, take all the bytes they are given. -/
theorem delimited_or_stop_or_message (i : Instr) :
    (i.format ∈ [Format.call, .displayFrame, .commandPacket, .raw] ∨ ∃ b d, i = .diffChunk b d) ∨
      (∃ b u, i = .diffStop b u) ∨ i.format = .message := by
  cases i with
  | diffChunk block data => exact .inl (.inr ⟨block, data, rfl⟩)
  | diffStop block unused => exact .inr (.inl ⟨block, unused, rfl⟩)
  | msgSessionInit | msgSessionInfo | msgButtonEvent | msgButtonAck | msgOther => exact .inr (.inr rfl)
  | _ => exact .inl (.inl (by simp [Instr.format]))

theorem decode_encode {i : Instr} (hw : WellFormed i) : decode i.format (encode i) = .ok (i, []) := by
  obtain h | ⟨block, unused, rfl⟩ | hf := delimited_or_stop_or_message i
  · simpa using decode_encode_append [] hw h
  · exact decodeChunk_stop block hw
  · rw [hf]
    exact decodeMessage_encode hw hf

end Sys2Proof

namespace Sys2Proof.Machine

/-! A listing of calls (R91, R92). -/

theorem ne_nil_of_decode {f : Format} {bs left : List Byte} {i : Instr} (h : decode f bs = .ok (i, left)) : bs ≠ [] := by
  rintro rfl
  cases (decode_nil f).symm.trans h

theorem requeue_of_ne_nil {f : Format} {bs : List Byte} (others : List Request) (h : bs ≠ []) :
    requeue f bs others = { format := f, bytes := bs } :: others := if_neg h

/-- What is left of a request goes on where it was cut. -/
theorem fetch_requeue {f : Format} {bs left : List Byte} {i : Instr} (others : List Request)
    (h : decode f bs = .ok (i, left)) : fetch (requeue f bs others) = .run i (requeue f left others) := by
  rw [requeue_of_ne_nil others (ne_nil_of_decode h)]
  exact fetch_eq_run_of_decode (r := { format := f, bytes := bs }) others h

/-- R92: every operation of R90 completes, with one reply. -/
theorem exec_call_replies {i : Instr} (s : State) (hf : i.format = .call) :
    ∃ t, exec i s = .next t ∧ t.replies.length = s.replies.length + 1 := by
  cases i <;> cases hf
  case dispIngest data =>
    obtain ⟨-, hx⟩ | ⟨-, hx⟩ := execDispIngest_cases data s <;> exact ⟨_, hx, by simp⟩
  case cmdIngest data =>
    obtain ⟨-, hx⟩ | ⟨-, hx⟩ := execCmdIngest_cases data s <;> exact ⟨_, hx, by simp⟩
  case dispPixel x y =>
    simp only [exec, execDispPixel]
    split <;> exact ⟨_, rfl, by simp⟩
  case pktBuild type payload =>
    simp only [exec, execPktBuild]
    split <;> exact ⟨_, rfl, by simp⟩
  all_goals exact ⟨_, rfl, by simp [State.fetchOnce_eq]⟩

theorem decode_listing_cons {i : Instr} {is : List Instr} (hw : WellFormed i) (hf : i.format = .call) :
    decode .call ((i :: is).map encode).flatten = .ok (i, (is.map encode).flatten) :=
  decodeCall_encode _ hw hf

/-- The listing's bytes are taken off the inbox call by call; with none left the inbox is empty, so the induction starts from
the empty listing. -/
theorem runSteps_listing (is : List Instr) (s : State) (hcalls : ∀ i ∈ is, WellFormed i ∧ i.format = .call)
    (hinbox : s.inbox = requeue .call (is.map encode).flatten []) :
    ∃ t, runOps is (s.withInbox []) = .next t ∧ runSteps is.length s = .next t ∧
      t.replies.length = s.replies.length + is.length := by
  induction is generalizing s with
  | nil =>
    have hself : s.withInbox [] = s := by
      rw [show ([] : List Request) = s.inbox from hinbox.symm, State.withInbox_self]
    exact ⟨s, by rw [hself, runOps], rfl, rfl⟩
  | cons i is ih =>
    obtain ⟨⟨hw, hf⟩, htail⟩ := List.forall_mem_cons.mp hcalls
    obtain ⟨u, hu, hreplies⟩ := exec_call_replies s hf
    have hexec (q : List Request) : exec i (s.withInbox q) = .next (u.withInbox q) := by
      rw [exec_withInbox, hu, mapNext]
    have hstep : step s = .next (u.withInbox (requeue .call (is.map encode).flatten [])) := by
      rw [step_eq_exec_of_fetch (hinbox ▸ fetch_requeue [] (decode_listing_cons hw hf)), hexec]
    obtain ⟨t, hops, hsteps, hlen⟩ := ih (u.withInbox (requeue .call (is.map encode).flatten [])) htail rfl
    refine ⟨t, ?_, ?_, ?_⟩
    · rwa [runOps, hexec]
    · rwa [List.length_cons, runSteps, hstep]
    · rw [hlen, State.withInbox_replies, hreplies, List.length_cons]
      omega

/-! The fields of a message (R182, R183). -/

theorem messageFields_messageBytes (type : Word) (tail : MsgTail) :
    messageFields (messageBytes type tail) = fieldsOf type tail := by
  have htype : le16At (messageBytes type tail) 0 = type := le16_lowByte_highByte type
  cases tail with
  | short stray =>
    have hl : ¬4 ≤ (messageBytes type (.short stray)).length := by
      cases stray <;> simp [messageBytes, tailBytes]
    rw [messageFields, if_neg hl, htype, fieldsOf]
  | full plen body =>
    have hl : 4 ≤ (messageBytes type (.full plen body)).length := by simp [messageBytes, tailBytes]; omega
    have hplen : le16At (messageBytes type (.full plen body)) 2 = plen := le16_lowByte_highByte plen
    have hbody : (messageBytes type (.full plen body)).drop 4 = body := rfl
    rw [messageFields, if_pos hl]
    simp only [htype, hplen, hbody, fieldsOf, ← List.take_eq_take_min]

/-- R77: a message handed over is its fields and the view of its payload. -/
theorem State.takeMessage_eq_fieldsOf (s : State) (type : Word) (tail : MsgTail)
    (view : List Byte → Option PayloadView) :
    s.takeMessage type tail view = s.reply (.message (fieldsOf type tail) (view (fieldsOf type tail).payload)) := by
  rw [State.takeMessage_eq, messageFields_messageBytes]

/-! Payload layouts, byte by byte (R73 to R76). -/

section
variable (b0 b1 b2 b3 b4 b5 b6 b7 b8 b9 : Byte)

theorem viewSessionInit_bytes : viewSessionInit [b0, b1, b2, b3] = some (.sessionInit (le32 b0 b1 b2 b3)) := rfl

theorem viewSessionInfo_bytes (rest : List Byte) :
    viewSessionInfo ([b0, b1, b2, b3] ++ rest) = some (.sessionInfo (le32 b0 b1 b2 b3) rest) :=
  if_pos (by simp)

theorem viewButtonEvent_bytes :
    viewButtonEvent [b0, b1, b2, b3, b4, b5, b6, b7, b8, b9] =
      some (.buttonEvent (le32 b0 b1 b2 b3) (le16 b4 b5) b6 b7 (le16 b8 b9)) := rfl

theorem viewButtonAck_bytes : viewButtonAck [b0, b1, b2, b3] = some (.buttonAck (le16 b0 b1) b2 b3) := rfl

end

/-! Payloads written from fields. -/

theorem viewSessionInit_payloadOf (ts : DWord) :
    viewSessionInit (payloadOf (.sessionInit ts)) = some (.sessionInit ts) := by
  rw [payloadOf, le32Bytes, viewSessionInit_bytes, le32_of_bytes]

theorem viewSessionInfo_payloadOf (ts : DWord) (rest : List Byte) :
    viewSessionInfo (payloadOf (.sessionInfo ts rest)) = some (.sessionInfo ts rest) := by
  rw [payloadOf, le32Bytes, viewSessionInfo_bytes, le32_of_bytes]

theorem viewButtonEvent_payloadOf (ts : DWord) (seq : Word) (key action : Byte) (reserved : Word) :
    viewButtonEvent (payloadOf (.buttonEvent ts seq key action reserved)) =
      some (.buttonEvent ts seq key action reserved) := by
  simp only [payloadOf, le32Bytes, le16Bytes, List.cons_append, List.nil_append, viewButtonEvent_bytes, le32_of_bytes,
    le16_lowByte_highByte]

theorem viewButtonAck_payloadOf (seq : Word) (status queueDepth : Byte) :
    viewButtonAck (payloadOf (.buttonAck seq status queueDepth)) = some (.buttonAck seq status queueDepth) := by
  simp only [payloadOf, le16Bytes, List.cons_append, List.nil_append, viewButtonAck_bytes, le16_lowByte_highByte]

end Sys2Proof.Machine

namespace Sys2Proof.Proofs

open Machine

/-- Settles O4, from each format's part of the decoder. -/
theorem decodeOfEncodeIsTheInstruction : Obligations.DecodeOfEncodeIsTheInstruction :=
  fun _ hw => decode_encode hw

/-- Settles O6, by induction on the listing. -/
theorem listingRunsLineByLine : Obligations.ListingRunsLineByLine := by
  intro is s hne hcalls hinbox
  refine runSteps_listing is s hcalls ?_
  cases is with
  | nil => exact absurd rfl hne
  | cons i is =>
    obtain ⟨hw, hf⟩ := hcalls i List.mem_cons_self
    rw [hinbox, requeue_of_ne_nil [] (ne_nil_of_decode (decode_listing_cons hw hf))]

/-- Settles O5, from each format's part of the decoder. -/
theorem encodedInstructionsFollowOneAnother : Obligations.EncodedInstructionsFollowOneAnother :=
  fun _ rest hw h => decode_encode_append rest hw h

/-- Settles O8: the bytes are those of a frame, and its row is read off its class. -/
theorem frameRowIsDecidedByTypeAndSize : Obligations.FrameRowIsDecidedByTypeAndSize := by
  intro type p rest h
  have hbytes : [0xAA#8, 0x55#8, type, BitVec.ofNat 8 (p.length / 256), BitVec.ofNat 8 (p.length % 256)] ++ p =
      frameBytes type p := by
    rw [frameBytes, be16Bytes_ofNat h]
    rfl
  rw [hbytes, decode, decodeFrame_frameBytes type p rest h, frameInstr_eq_ite]

/-- Settles O56: each message row hands its message over, under the type that is its own. -/
theorem messageRowsHandOverTheirFields : Obligations.MessageRowsHandOverTheirFields := by
  intro s type tail
  refine ⟨?_, ?_, ?_, ?_, ?_⟩ <;> exact congrArg Host.Outcome.next (s.takeMessage_eq_fieldsOf _ tail _)

/-- Settles O58, one layout for each type. -/
theorem payloadFieldsRoundTrip : Obligations.PayloadFieldsRoundTrip := by
  intro v
  refine ⟨fun h => ?_, fun h => ?_, fun h => ?_, fun h => ?_⟩ <;> cases v <;> cases h
  case refine_1.sessionInit.refl ts => exact ⟨viewSessionInit_payloadOf ts, rfl⟩
  case refine_2.sessionInfo.refl ts rest => exact ⟨viewSessionInfo_payloadOf ts rest, by simp [payloadOf]⟩
  case refine_3.buttonEvent.refl ts seq key action reserved =>
    exact ⟨viewButtonEvent_payloadOf ts seq key action reserved, rfl⟩
  case refine_4.buttonAck.refl seq status queueDepth => exact ⟨viewButtonAck_payloadOf seq status queueDepth, rfl⟩

/-- Settles O7: each word is decoded. -/
theorem wordsOfTheSpecDecode : Obligations.WordsOfTheSpecDecode := by
  unfold Obligations.WordsOfTheSpecDecode
  and_intros <;> decide

/-- Settles O57, one layout after another. -/
theorem payloadsAreLaidOutAsTheirTypeSays : Obligations.PayloadsAreLaidOutAsTheirTypeSays :=
  fun b0 b1 b2 b3 b4 b5 b6 b7 b8 b9 rest =>
    ⟨viewSessionInit_bytes b0 b1 b2 b3, viewSessionInfo_bytes b0 b1 b2 b3 rest,
      viewButtonEvent_bytes b0 b1 b2 b3 b4 b5 b6 b7 b8 b9, viewButtonAck_bytes b0 b1 b2 b3⟩

end Sys2Proof.Proofs
end

section
/-! Proofs for the obfuscation statements (40_obfuscation.md R100 to R102): the codec by index, as its own inverse and on
joined operands. -/

namespace Sys2Proof.Machine

/-- R100: XOR_APPLY hands over its codec's bytes and changes nothing. -/
theorem exec_xorApply (data : List Byte) (s : State) :
    exec (.xorApply data) s = .next (s.reply (.bytes (xorApply s.params.xorKey data))) := rfl

/-- R100: the codec reads the key by the index within the operand. -/
theorem xorApply_eq_xorByIndex (key : Vector Byte 16) (d : List Byte) : xorApply key d = xorByIndex key d := by
  refine List.ext_getElem? fun j => ?_
  rw [xorApply, xorFrom_getElem?, Nat.zero_add, xorByIndex, List.getElem?_mapIdx]
  rfl

/-- R101: the codec is its own inverse. -/
@[simp] theorem xorApply_xorApply (key : Vector Byte 16) (d : List Byte) : xorApply key (xorApply key d) = d :=
  xorFrom_xorFrom key 0 d

/-- The key repeats every 16 bytes, so a start index moves by a multiple of 16 without effect. -/
theorem xorFrom_add_of_mod_eq_zero (key : Vector Byte 16) {n : Nat} (hn : n % 16 = 0) (i : Nat) (d : List Byte) :
    xorFrom key (n + i) d = xorFrom key i d := by
  refine List.ext_getElem? fun j => ?_
  rw [xorFrom_getElem?, xorFrom_getElem?, Nat.add_assoc, keyByte_add key (i + j) n hn]

/-- R102: a cut at a multiple of 16 leaves the key index of every byte as it was. -/
theorem xorApply_append (key : Vector Byte 16) {d : List Byte} (hd : d.length % 16 = 0) (e : List Byte) :
    xorApply key (d ++ e) = xorApply key d ++ xorApply key e := by
  rw [xorApply, xorFrom_append, Nat.add_comm, xorFrom_add_of_mod_eq_zero key hd]
  rfl

end Sys2Proof.Machine

namespace Sys2Proof.Proofs

open Machine

/-- Settles O21: the codec agrees with the reading by index. -/
theorem xorApplyCombinesEachByteWithItsKeyByte : Obligations.XorApplyCombinesEachByteWithItsKeyByte := by
  intro s d
  rw [exec_xorApply, xorApply_eq_xorByIndex]

/-- Settles O22: the codec is its own inverse. -/
theorem xorApplyTwiceRestoresTheBytes : Obligations.XorApplyTwiceRestoresTheBytes := by
  intro s d
  refine ⟨xorApply s.params.xorKey d, exec_xorApply d s, ?_⟩
  rw [exec_xorApply, xorApply_xorApply]

/-- Settles O23: the codec of a joined operand is the two results joined. -/
theorem xorApplySplitsAtMultiplesOfTheKeyLength : Obligations.XorApplySplitsAtMultiplesOfTheKeyLength := by
  intro s d e hd
  refine ⟨xorApply s.params.xorKey d, xorApply s.params.xorKey e, exec_xorApply d s, exec_xorApply e s, ?_⟩
  rw [exec_xorApply, xorApply_append _ hd]

end Sys2Proof.Proofs
end

section
/-! Proofs for the CRC statements (41_crc16.md R110 to R118): the bit step on natural numbers, the CRC as a linear map, its
residue, and the register view. -/

namespace Sys2Proof.Machine

/-! What each CRC operation does. -/

/-- R114. -/
theorem exec_crcInit (s : State) : exec .crcInit s = .next ((s.withCrcReg 0x0000#16).reply .done) := rfl

/-- R115. -/
theorem exec_crcByte (b : Byte) (s : State) :
    exec (.crcByte b) s = .next ((s.withCrcReg (crcUpdate s.crcReg b)).reply .done) := rfl

/-- R116. -/
theorem exec_crcRead (s : State) : exec .crcRead s = .next (s.reply (.word s.crcReg)) := rfl

/-- R112: CRC16 hands over the CRC and changes nothing. -/
theorem exec_crc16 (d : List Byte) (s : State) : exec (.crc16 d) s = .next (s.reply (.word (crc16 d))) := rfl

@[simp] theorem State.reply_inj (s : State) (r r' : Reply) : s.reply r = s.reply r' ↔ r = r' := by
  refine ⟨fun h => ?_, fun h => h ▸ rfl⟩
  simpa using congrArg State.replies h

/-- What CRC16 answers tells the CRC. -/
theorem exec_crc16_eq_iff {d : List Byte} {s : State} {c : Word} :
    exec (.crc16 d) s = .next (s.reply (.word c)) ↔ crc16 d = c := by
  rw [exec_crc16, Host.Outcome.next.injEq, State.reply_inj, Reply.word.injEq]

/-! The bit step and the byte update on natural numbers (R111). -/

theorem crcStep_toNat (c : Word) : (crcStep c).toNat = crcStepNat c.toNat := by
  have hmask (n : Nat) : n &&& 0xFFFF = n % 2 ^ 16 := Nat.and_two_pow_sub_one_eq_mod n 16
  rw [crcStep, crcStepNat, BitVec.testBit_toNat]
  split
  · rw [BitVec.toNat_xor, BitVec.toNat_shiftLeft, hmask, Nat.xor_mod_two_pow]
    rfl
  · rw [BitVec.toNat_shiftLeft, hmask]

/-- A byte put into bits 15 to 8 loses none of its bits. -/
theorem zeroExtend_shiftLeft_toNat (b : Byte) : (b.zeroExtend 16 <<< 8).toNat = b.toNat <<< 8 := by
  have hb := b.isLt
  rw [BitVec.toNat_shiftLeft, BitVec.toNat_setWidth, Nat.mod_eq_of_lt (by omega), Nat.shiftLeft_eq]
  omega

theorem crcUpdate_toNat (c : Word) (b : Byte) : (crcUpdate c b).toNat = crcUpdateNat c.toNat b.toNat := by
  simp only [crcUpdate, crcSteps, crcUpdateNat, crcStep_toNat, BitVec.toNat_xor, zeroExtend_shiftLeft_toNat]

theorem foldl_crcUpdate_toNat (d : List Byte) (c : Word) :
    (d.foldl crcUpdate c).toNat = d.foldl (fun n b => crcUpdateNat n b.toNat) c.toNat := by
  induction d generalizing c with
  | nil => rfl
  | cons b d ih => rw [List.foldl_cons, List.foldl_cons, ih, crcUpdate_toNat]

/-! Linearity (R118 (c)): the shift is linear, and so is the choice of the polynomial by bit 15. -/

theorem crcStep_xor (a b : Word) : crcStep (a ^^^ b) = crcStep a ^^^ crcStep b := by
  simp only [crcStep, BitVec.getLsbD_xor, BitVec.shiftLeft_xor_distrib]
  cases a.getLsbD 15 <;> cases b.getLsbD 15
  case false.false => rfl
  case false.true =>
    show a <<< 1 ^^^ b <<< 1 ^^^ crcPoly = a <<< 1 ^^^ (b <<< 1 ^^^ crcPoly)
    ac_rfl
  case true.false =>
    show a <<< 1 ^^^ b <<< 1 ^^^ crcPoly = (a <<< 1 ^^^ crcPoly) ^^^ b <<< 1
    ac_rfl
  case true.true =>
    calc a <<< 1 ^^^ b <<< 1
        = a <<< 1 ^^^ b <<< 1 ^^^ (crcPoly ^^^ crcPoly) := by rw [BitVec.xor_self, BitVec.xor_zero]
      _ = (a <<< 1 ^^^ crcPoly) ^^^ (b <<< 1 ^^^ crcPoly) := by ac_rfl

theorem crcSteps_xor (n : Nat) (a b : Word) : crcSteps n (a ^^^ b) = crcSteps n a ^^^ crcSteps n b := by
  induction n generalizing a b with
  | zero => rfl
  | succ n ih => rw [crcSteps, crcStep_xor, ih, crcSteps, crcSteps]

theorem crcUpdate_xor (c c' : Word) (b b' : Byte) :
    crcUpdate (c ^^^ c') (b ^^^ b') = crcUpdate c b ^^^ crcUpdate c' b' := by
  have hbyte : (b ^^^ b').zeroExtend 16 <<< 8 = (b.zeroExtend 16 <<< 8) ^^^ (b'.zeroExtend 16 <<< 8) := by
    rw [BitVec.zeroExtend, BitVec.setWidth_xor, BitVec.shiftLeft_xor_distrib]
  rw [crcUpdate, crcUpdate, crcUpdate, ← crcSteps_xor, hbyte]
  congr 1
  ac_rfl

theorem foldl_crcUpdate_xor {d e : List Byte} (h : d.length = e.length) (c c' : Word) :
    (List.zipWith (· ^^^ ·) d e).foldl crcUpdate (c ^^^ c') = d.foldl crcUpdate c ^^^ e.foldl crcUpdate c' := by
  induction d generalizing e c c' with
  | nil =>
    obtain rfl := List.eq_nil_of_length_eq_zero h.symm
    rfl
  | cons b d ih =>
    cases e with
    | nil => cases h
    | cons b' e =>
      rw [List.zipWith_cons_cons, List.foldl_cons, crcUpdate_xor, ih (Nat.succ.inj h)]
      rfl

theorem crc16_xor {d e : List Byte} (h : d.length = e.length) :
    crc16 (List.zipWith (· ^^^ ·) d e) = crc16 d ^^^ crc16 e :=
  foldl_crcUpdate_xor h 0x0000#16 0x0000#16

/-! A zero byte in front, and the residue (R118 (a), (b)). -/

@[simp] theorem crcUpdate_zero : crcUpdate 0x0000#16 0x00#8 = 0x0000#16 := rfl

theorem crc16_zero_cons (d : List Byte) : crc16 (0x00#8 :: d) = crc16 d := by
  rw [crc16, List.foldl_cons, crcUpdate_zero, crc16]

/-- As long as no one bit reaches bit 15, the bit steps only shift. -/
theorem crcSteps_eq_shiftLeft {n : Nat} {c : Word} (h : c.toNat * 2 ^ n < 2 ^ 16) : crcSteps n c = c <<< n := by
  induction n generalizing c with
  | zero => rw [crcSteps, BitVec.shiftLeft_zero]
  | succ n ih =>
    rw [Nat.pow_succ', ← Nat.mul_assoc] at h
    have hlt : c.toNat * 2 < 2 ^ 16 := (Nat.le_mul_of_pos_right _ (Nat.two_pow_pos n)).trans_lt h
    have hbit : c.getLsbD 15 = false := Nat.testBit_lt_two_pow (by omega)
    have hshift : (c <<< 1).toNat = c.toNat * 2 := by
      rw [BitVec.toNat_shiftLeft, Nat.shiftLeft_eq, Nat.pow_one, Nat.mod_eq_of_lt hlt]
    rw [crcSteps, crcStep, hbit, if_neg Bool.false_ne_true, ih (hshift ▸ h), ← BitVec.shiftLeft_add,
      Nat.add_comm]

/-- The update with the register's own bits 15 to 8 cancels them and moves bits 7 to 0 up. -/
theorem crcUpdate_highByte (c : Word) : crcUpdate c (highByte c) = (lowByte c).zeroExtend 16 <<< 8 := by
  have hlow : c ^^^ ((highByte c).zeroExtend 16 <<< 8) = (lowByte c).zeroExtend 16 := by
    ext i hi
    by_cases h8 : i < 8
    · simp [highByte, lowByte, h8, hi]
    · have hback : 8 + (i - 8) = i := by omega
      simp [highByte, lowByte, h8, hi, hback, show i - 8 < 8 by omega]
  rw [crcUpdate, hlow, crcSteps_eq_shiftLeft]
  have hb := (lowByte c).isLt
  rw [BitVec.toNat_setWidth, Nat.mod_eq_of_lt (by omega)]
  omega

/-- The update with a byte that alone stands in bits 15 to 8 cancels it. -/
theorem crcUpdate_shiftLeft_self (b : Byte) : crcUpdate (b.zeroExtend 16 <<< 8) b = 0x0000#16 := by
  rw [crcUpdate, BitVec.xor_self]
  rfl

theorem crc16_residue (d : List Byte) : crc16 (d ++ be16Bytes (crc16 d)) = 0x0000#16 := by
  rw [be16Bytes, ← List.singleton_append, ← List.append_assoc, crc16_append_singleton, crc16_append_singleton,
    crcUpdate_highByte, crcUpdate_shiftLeft_self]

/-- The other byte order has no such residue: here the updates go from 0x1021 by its low byte 0x21 and then by 0x10. -/
theorem crc16_append_le16Bytes_ne : crc16 ([0x01#8] ++ le16Bytes (crc16 [0x01#8])) ≠ 0x0000#16 := by
  have hcrc : crc16 [0x01#8] = 0x1021#16 := by decide
  have hbytes : [0x01#8] ++ le16Bytes 0x1021#16 = [0x01#8] ++ [0x21#8] ++ [0x10#8] := by decide
  have hlow : crcUpdate 0x1021#16 0x21#8 = 0x0772#16 := by decide
  have hhigh : crcUpdate 0x0772#16 0x10#8 = 0x10D6#16 := by decide
  rw [hcrc, hbytes, crc16_append_singleton, crc16_append_singleton, hcrc, hlow, hhigh]
  decide

/-! The register view (R117). -/

theorem runOps_cons_of_next {i : Instr} {s t : State} (is : List Instr) (h : exec i s = .next t) :
    runOps (i :: is) s = runOps is t := by
  rw [runOps, h]

/-- A host's operations go on from where the ones before them ended. -/
theorem runOps_append_of_next {is : List Instr} {s t : State} (js : List Instr) (h : runOps is s = .next t) :
    runOps (is ++ js) s = runOps js t := by
  induction is generalizing s with
  | nil => cases h; rfl
  | cons i is ih =>
    rw [List.cons_append, runOps]
    rw [runOps] at h
    cases hx : exec i s with
    | next u => rw [hx] at h; exact ih h
    | fault | refused => rw [hx] at h; cases h

/-- R115: CRC_BYTE of each byte in turn updates CRC_REG with each. -/
theorem runOps_map_crcByte (d : List Byte) (s : State) :
    ∃ t, runOps (d.map Instr.crcByte) s = .next t ∧ t.crcReg = d.foldl crcUpdate s.crcReg := by
  induction d generalizing s with
  | nil => exact ⟨s, rfl, rfl⟩
  | cons b d ih =>
    obtain ⟨t, hrun, hreg⟩ := ih ((s.withCrcReg (crcUpdate s.crcReg b)).reply .done)
    exact ⟨t, (runOps_cons_of_next _ (exec_crcByte b s)).trans hrun, hreg⟩

/-! No other meaning reads or writes CRC_REG. -/

theorem execDispIngest_withCrcReg (data : List Byte) (s : State) (v : Word) :
    execDispIngest data (s.withCrcReg v) = mapNext (·.withCrcReg v) (execDispIngest data s) := by
  unfold execDispIngest
  rw [apply_ite (mapNext _)]
  rfl

theorem execCmdIngest_withCrcReg (data : List Byte) (s : State) (v : Word) :
    execCmdIngest data (s.withCrcReg v) = mapNext (·.withCrcReg v) (execCmdIngest data s) := by
  unfold execCmdIngest
  rw [apply_ite (mapNext _)]
  rfl

/-- R117: an instruction of neither the register view nor RESET gives the same outcome with any
CRC_REG, which it keeps. -/
theorem exec_withCrcReg {i : Instr} (s : State) (v : Word) (hinit : i ≠ .crcInit) (hbyte : ∀ b, i ≠ .crcByte b)
    (hread : i ≠ .crcRead) (hreset : i ≠ .reset) :
    exec i (s.withCrcReg v) = mapNext (·.withCrcReg v) (exec i s) := by
  cases i with
  | crcInit => exact absurd rfl hinit
  | crcByte b => exact absurd rfl (hbyte b)
  | crcRead => exact absurd rfl hread
  | reset => exact absurd rfl hreset
  | dispIngest data => exact execDispIngest_withCrcReg data s v
  | cmdIngest data => exact execCmdIngest_withCrcReg data s v
  | dispPixel x y => simp only [exec, execDispPixel, apply_ite (mapNext _)]; rfl
  | pktBuild type payload => simp only [exec, execPktBuild, apply_ite (mapNext _)]; rfl
  | dispScreenshot | dispDiff | dispUnknown | diffChunk | diffStop =>
    exact (congrArg (whenFormed _) (execDispIngest_withCrcReg _ s v)).trans (mapNext_whenFormed _ _ _).symm
  | cmdPacket =>
    exact (congrArg (whenFormed _) (execCmdIngest_withCrcReg _ s v)).trans (mapNext_whenFormed _ _ _).symm
  | xorApply | crc16 | dispRead | pktFetch | msgSessionInit | msgSessionInfo | msgButtonEvent | msgButtonAck | msgOther
    | keepalive => rfl

end Sys2Proof.Machine

namespace Sys2Proof.Proofs

open Machine

/-- Settles O25: the update agrees with the one on natural numbers. -/
theorem crcByteDoesEightBitSteps : Obligations.CrcByteDoesEightBitSteps :=
  fun s b => ⟨crcUpdate s.crcReg b, crcUpdate_toNat s.crcReg b, exec_crcByte b s⟩

/-- Settles O26: so does the fold of the updates. -/
theorem crc16UpdatesWithEachByte : Obligations.Crc16UpdatesWithEachByte :=
  fun s d => ⟨crc16 d, foldl_crcUpdate_toNat d 0x0000#16, exec_crc16 d s⟩

/-- Settles O27: the register runs through the fold that CRC16 is, and every other instruction's meaning is seen not to
use it. -/
theorem registerViewAgreesAndDoesNotInterfere : Obligations.RegisterViewAgreesAndDoesNotInterfere := by
  refine ⟨fun s d => ?_, fun i s v hinit hbyte hread hreset => exec_withCrcReg s v hinit hbyte hread hreset⟩
  obtain ⟨t, hrun, hreg⟩ := runOps_map_crcByte d ((s.withCrcReg 0x0000#16).reply .done)
  have hcrc : t.crcReg = crc16 d := hreg
  refine ⟨t.reply (.word t.crcReg), crc16 d, ?_, ?_, hcrc, exec_crc16 d s⟩
  · rw [runOps_cons_of_next _ (exec_crcInit s), runOps_append_of_next _ hrun,
      runOps_cons_of_next _ (exec_crcRead t), runOps]
  · rw [State.reply_replies, List.getLast?_concat, hcrc]

/-- Settles O28: each law of the CRC, read off CRC16's answers; the byte 0x01 has no residue in the other byte order. -/
theorem crcLaws : Obligations.CrcLaws := by
  refine ⟨fun s d => ?_, fun s d c hd => ?_, ⟨[0x01#8], crc16_append_le16Bytes_ne⟩, fun s d e c g hlen hd he => ?_⟩
  · rw [exec_crc16, exec_crc16, crc16_zero_cons]
  · obtain rfl := exec_crc16_eq_iff.mp hd
    exact exec_crc16_eq_iff.mpr (crc16_residue d)
  · obtain rfl := exec_crc16_eq_iff.mp hd
    obtain rfl := exec_crc16_eq_iff.mp he
    exact exec_crc16_eq_iff.mpr (crc16_xor hlen)

/-- Settles O24, from the two operations' equations. -/
theorem crcInitClearsAndCrcReadHandsOver : Obligations.CrcInitClearsAndCrcReadHandsOver :=
  fun s => ⟨exec_crcInit s, exec_crcRead s⟩

end Sys2Proof.Proofs
end

section
/-! Proofs for the display statements (42_display_frame.md R130 to R151): what one pass takes from a buffer and from a longer
one, that the display parser does not see how its stream is cut, what each class of frame does to BITMAP, and the bounds. -/

namespace Sys2Proof.Machine

/-! The search, by the spec's pairs (00_scope.md §4). -/

theorem pairAt_iff {b0 b1 : Byte} {s : List Byte} {k : Nat} :
    PairAt b0 b1 s k ↔ k + 1 < s.length ∧ byteOf s k = b0 ∧ byteOf s (k + 1) = b1 := by
  constructor
  · rintro ⟨h0, h1⟩
    exact ⟨(List.getElem?_eq_some_iff.mp h1).1, by simp [byteOf, h0], by simp [byteOf, h1]⟩
  · rintro ⟨hk, rfl, rfl⟩
    exact ⟨by rw [byteOf_eq_getElem _ _ (by omega), List.getElem?_eq_getElem],
      by rw [byteOf_eq_getElem _ _ hk, List.getElem?_eq_getElem]⟩

theorem find2_eq_none_of_no_pair {b0 b1 : Byte} {s : List Byte} (h : ∀ k, ¬PairAt b0 b1 s k) : find2 b0 b1 s = none :=
  find2_eq_none fun k hk hpair => h k (pairAt_iff.mpr ⟨hk, hpair⟩)

theorem find2_eq_some_iff_firstPair {b0 b1 : Byte} {s : List Byte} {k : Nat} :
    find2 b0 b1 s = some k ↔ FirstPair b0 b1 s k := by
  constructor
  · intro h
    obtain ⟨hk, h0, h1, hmin⟩ := find2_some h
    exact ⟨pairAt_iff.mpr ⟨hk, h0, h1⟩, fun j hj hpair => hmin j hj (pairAt_iff.mp hpair).2⟩
  · rintro ⟨hpair, hmin⟩
    obtain ⟨hk, h0, h1⟩ := pairAt_iff.mp hpair
    exact find2_eq_some hk h0 h1 fun j hj hj' => hmin j hj (pairAt_iff.mpr ⟨by omega, hj'⟩)

theorem find2_eq_some_zero {b0 b1 : Byte} {s : List Byte} (hl : 1 < s.length) (h0 : byteOf s 0 = b0)
    (h1 : byteOf s 1 = b1) : find2 b0 b1 s = some 0 :=
  find2_eq_some hl h0 h1 fun j hj => absurd hj (Nat.not_lt_zero j)

/-- Bytes in which no pair begins only move what the search answers. -/
theorem find2_append_of_no_pair {b0 b1 : Byte} {g z : List Byte} (hz : z ≠ [])
    (hg : ∀ j < g.length, ¬PairAt b0 b1 (g ++ z) j) : find2 b0 b1 (g ++ z) = (find2 b0 b1 z).map (· + g.length) := by
  induction g with
  | nil => simp
  | cons x g ih =>
    obtain ⟨y, t, hyt⟩ := List.exists_cons_of_ne_nil (show g ++ z ≠ [] by simp [hz])
    have hxy : ¬(x = b0 ∧ y = b1) := fun ⟨hx, hy⟩ => hg 0 (Nat.zero_lt_succ _) (by simp [PairAt, hyt, hx, hy])
    have htail := ih fun j hj hpair => hg (j + 1) (Nat.succ_lt_succ hj) (by simpa [PairAt] using hpair)
    rw [List.cons_append, hyt, find2_cons, if_neg hxy, ← hyt, htail, Option.map_map]
    rfl

/-! Garbage in front of a buffer (R133, R134). -/

/-- No display header begins in `g` when the bytes `z` stand behind it, nor when more bytes follow those. -/
def Garbage (g z : List Byte) : Prop := g = [] ∨ z ≠ [] ∧ ∀ j < g.length, ¬PairAt dispMagic0 dispMagic1 (g ++ z) j

theorem Garbage.append {g z : List Byte} (h : Garbage g z) (y : List Byte) : Garbage g (z ++ y) := by
  refine h.imp_right fun ⟨hz, hg⟩ => ⟨by simp [hz], fun j hj hpair => hg j hj ?_⟩
  have hlen : j + 1 < (g ++ z).length := by
    have := List.length_pos_iff.mpr hz
    rw [List.length_append]
    omega
  rw [← List.append_assoc] at hpair
  rwa [PairAt, List.getElem?_append_left (show j < (g ++ z).length by omega), List.getElem?_append_left hlen] at hpair

theorem garbage_of_find2 {rx : List Byte} {k : Nat} (h : find2 dispMagic0 dispMagic1 rx = some k) :
    Garbage (rx.take k) (rx.drop k) := by
  obtain ⟨hpair, hmin⟩ := find2_eq_some_iff_firstPair.mp h
  obtain ⟨hk, -⟩ := pairAt_iff.mp hpair
  refine .inr ⟨List.length_pos_iff.mp (by rw [List.length_drop]; omega), fun j hj => ?_⟩
  rw [List.take_append_drop]
  exact hmin j (hj.trans_le (List.length_take_le _ _))

/-! One pass. -/

theorem dispPass_of_short {rx : List Byte} (h : rx.length < 5) : dispPass rx = .stop rx := if_pos h

theorem dispPass_of_no_header {rx : List Byte} (hl : 5 ≤ rx.length) (h : find2 dispMagic0 dispMagic1 rx = none) :
    dispPass rx = .stop (keepLast rx 1) := by
  rw [dispPass, if_neg (by omega), h]

/-- Of any length, a buffer without a header makes the pass return. -/
theorem exists_stop_of_no_header {rx : List Byte} (h : find2 dispMagic0 dispMagic1 rx = none) :
    ∃ q, dispPass rx = .stop q := by
  by_cases hl : rx.length < 5
  · exact ⟨_, dispPass_of_short hl⟩
  · exact ⟨_, dispPass_of_no_header (by omega) h⟩

theorem dispPass_of_header {rx : List Byte} {k : Nat} (hl : 5 ≤ rx.length)
    (h : find2 dispMagic0 dispMagic1 rx = some k) : dispPass rx = dispExtract (rx.drop k) := by
  rw [dispPass, if_neg (by omega), h]

theorem dispExtract_of_short {rx : List Byte} (h : rx.length < 5 ∨ rx.length < 5 + (be16At rx 3).toNat) :
    dispExtract rx = .stop rx := by
  obtain ⟨he, -⟩ | ⟨-, hl⟩ := dispExtract_cases rx
  · exact he
  · omega

/-- Only an empty buffer leaves an empty buffer without a frame. -/
theorem ne_nil_of_dispPass_stop {rx q : List Byte} (hne : rx ≠ []) (h : dispPass rx = .stop q) : q ≠ [] := by
  have hlen := List.length_pos_iff.mpr hne
  obtain ⟨-, hp⟩ | ⟨-, -, hp⟩ | ⟨k, -, hk, hp⟩ := dispPass_cases rx
  · cases hp.symm.trans h
    exact hne
  · cases hp.symm.trans h
    exact List.length_pos_iff.mp (by rw [keepLast_length]; omega)
  · obtain ⟨he, -⟩ | ⟨he, -⟩ := dispExtract_cases (rx.drop k) <;> cases (hp.trans he).symm.trans h
    have := (find2_some hk).1
    exact List.length_pos_iff.mp (by rw [List.length_drop]; omega)

/-- A pass that returns has dropped garbage only. -/
theorem garbage_of_dispPass_stop {rx q : List Byte} (h : dispPass rx = .stop q) : ∃ g, rx = g ++ q ∧ Garbage g q := by
  obtain ⟨-, hp⟩ | ⟨hl, hn, hp⟩ | ⟨k, -, hk, hp⟩ := dispPass_cases rx
  · cases hp.symm.trans h
    exact ⟨[], rfl, .inl rfl⟩
  · cases hp.symm.trans h
    refine ⟨rx.take (rx.length - 1), (List.take_append_drop _ _).symm, .inr ⟨?_, fun j hj hpair => ?_⟩⟩
    · exact List.length_pos_iff.mp (by rw [keepLast_length]; omega)
    · rw [keepLast, List.take_append_drop] at hpair
      obtain ⟨hj', hpair⟩ := pairAt_iff.mp hpair
      exact find2_none hn j hj' hpair
  · obtain ⟨he, -⟩ | ⟨he, -⟩ := dispExtract_cases (rx.drop k) <;> cases (hp.trans he).symm.trans h
    exact ⟨rx.take k, (List.take_append_drop _ _).symm, garbage_of_find2 hk⟩

/-- R63: a buffer that begins with a header and holds the whole frame is that frame's bytes and what follows them. -/
theorem eq_frameBytes_append {z : List Byte} (h0 : byteOf z 0 = dispMagic0) (h1 : byteOf z 1 = dispMagic1)
    (hl : 5 + (be16At z 3).toNat ≤ z.length) :
    z = frameBytes (byteOf z 2) (slice z 5 (5 + (be16At z 3).toNat)) ++ z.drop (5 + (be16At z 3).toNat) := by
  obtain _ | ⟨x0, _ | ⟨x1, _ | ⟨x2, _ | ⟨x3, _ | ⟨x4, t⟩⟩⟩⟩⟩ := z <;>
    simp only [List.length_cons, List.length_nil] at hl
  case cons.cons.cons.cons.cons =>
    obtain rfl : x0 = dispMagic0 := h0
    obtain rfl : x1 = dispMagic1 := h1
    have hn : be16At (dispMagic0 :: dispMagic1 :: x2 :: x3 :: x4 :: t) 3 = be16 x3 x4 := rfl
    rw [hn] at hl ⊢
    have hsize : BitVec.ofNat 16 (t.take (be16 x3 x4).toNat).length = be16 x3 x4 := by
      rw [List.length_take, Nat.min_eq_left (by omega), BitVec.ofNat_toNat, BitVec.setWidth_eq]
    have hbytes : be16Bytes (be16 x3 x4) = [x3, x4] := by
      rw [be16Bytes, show be16 x3 x4 = le16 x4 x3 from rfl, lowByte_le16, highByte_le16]
    have hslice : slice (dispMagic0 :: dispMagic1 :: x2 :: x3 :: x4 :: t) 5 (5 + (be16 x3 x4).toNat) =
        t.take (be16 x3 x4).toNat := by simp [slice]
    rw [hslice, frameBytes, hsize, hbytes]
    simp [Nat.add_comm 5]
  all_goals omega

/-- A pass takes a frame exactly where its bytes stand behind garbage. -/
theorem dispPass_frame_eq {rx : List Byte} {type : Byte} {payload rest : List Byte}
    (h : dispPass rx = .frame type payload rest) :
    ∃ g, rx = g ++ (frameBytes type payload ++ rest) ∧ Garbage g (frameBytes type payload ++ rest) ∧
      payload.length < 65536 := by
  obtain ⟨-, hp⟩ | ⟨-, -, hp⟩ | ⟨k, -, hk, hp⟩ := dispPass_cases rx
  · cases hp.symm.trans h
  · cases hp.symm.trans h
  · obtain ⟨he, -⟩ | ⟨he, hl⟩ := dispExtract_cases (rx.drop k) <;> cases (hp.trans he).symm.trans h
    obtain ⟨-, h0, h1, -⟩ := find2_some hk
    have hz := eq_frameBytes_append (z := rx.drop k) (by rwa [byteOf_drop]) (by rwa [byteOf_drop]) hl
    rw [← hz]
    refine ⟨rx.take k, (List.take_append_drop _ _).symm, garbage_of_find2 hk, ?_⟩
    rw [slice_length _ _ _ hl]
    omega

/-- Garbage in front of a buffer changes nothing of a pass but, where it returns, what it leaves. -/
theorem dispPass_garbage {g z : List Byte} (h : Garbage g z) :
    dispPass (g ++ z) = dispPass z ∨
      z ≠ [] ∧ (∃ q, dispPass (g ++ z) = .stop q) ∧ ∃ q, dispPass z = .stop q := by
  obtain rfl | ⟨hz, hg⟩ := h
  · exact .inl rfl
  have hfind := find2_append_of_no_pair hz hg
  by_cases hshort : (g ++ z).length < 5
  · rw [List.length_append] at hshort
    exact .inr ⟨hz, ⟨_, dispPass_of_short (by rw [List.length_append]; omega)⟩, _, dispPass_of_short (by omega)⟩
  cases hf : find2 dispMagic0 dispMagic1 z with
  | none => exact .inr ⟨hz, exists_stop_of_no_header (by rw [hfind, hf]; rfl), exists_stop_of_no_header hf⟩
  | some k =>
    have hdrop : (g ++ z).drop (k + g.length) = z.drop k := by
      rw [Nat.add_comm, ← List.drop_drop, List.drop_left' rfl]
    have hp : dispPass (g ++ z) = dispExtract (z.drop k) := by
      rw [dispPass_of_header (by omega) (by rw [hfind, hf]; rfl), hdrop]
    by_cases hl : z.length < 5
    · exact .inr ⟨hz, ⟨_, hp.trans (dispExtract_of_short (.inl (by rw [List.length_drop]; omega)))⟩, _,
        dispPass_of_short hl⟩
    · exact .inl (hp.trans (dispPass_of_header (by omega) hf).symm)

/-- R131, R133: a whole frame behind garbage is what the pass takes, whatever follows it. -/
theorem dispPass_garbage_frameBytes {g : List Byte} {type : Byte} {payload rest : List Byte}
    (hg : Garbage g (frameBytes type payload ++ rest)) (hl : payload.length < 65536) :
    dispPass (g ++ (frameBytes type payload ++ rest)) = .frame type payload rest := by
  have hp := dispPass_frameBytes type payload rest hl
  obtain he | ⟨-, -, q, hq⟩ := dispPass_garbage hg
  · rw [he, hp]
  · cases hp.symm.trans hq

/-- A frame that a pass takes, it takes from any longer buffer too. -/
theorem dispPass_append {rx : List Byte} {type : Byte} {payload rest : List Byte}
    (h : dispPass rx = .frame type payload rest) (y : List Byte) :
    dispPass (rx ++ y) = .frame type payload (rest ++ y) := by
  obtain ⟨g, rfl, hg, hl⟩ := dispPass_frame_eq h
  have hgy := hg.append y
  rw [List.append_assoc] at hgy
  rw [List.append_assoc, List.append_assoc]
  exact dispPass_garbage_frameBytes hgy hl

/-- R26: on a settled buffer the pass returns and leaves it as it is. -/
theorem dispPass_of_settled {rx : List Byte} (h : DispSettled rx) : dispPass rx = .stop rx := by
  obtain hl | ⟨h0, h1, hl⟩ := h
  · exact dispPass_of_short hl
  by_cases hs : rx.length < 5
  · exact dispPass_of_short hs
  rw [dispPass_of_header (by omega) (find2_eq_some_zero (by omega) h0 h1), List.drop_zero, dispExtract_of_short (.inr hl)]

/-! The loop, and what a longer buffer gives. -/

/-- What the loop leaves and produces, with events from before it. -/
def Drained.after (d : Drained) (es : List Event) : Drained := { d with events := es ++ d.events }

@[simp] theorem Drained.after_rx (d : Drained) (es : List Event) : (d.after es).rx = d.rx := rfl
@[simp] theorem Drained.after_bitmap (d : Drained) (es : List Event) : (d.after es).bitmap = d.bitmap := rfl
@[simp] theorem Drained.after_events (d : Drained) (es : List Event) : (d.after es).events = es ++ d.events := rfl
@[simp] theorem Drained.after_nil (d : Drained) : d.after [] = d := rfl

theorem Drained.after_after (d : Drained) (es fs : List Event) : (d.after fs).after es = d.after (es ++ fs) := by
  simp [Drained.after]

theorem dispDrain_of_stop {rx q : List Byte} (h : dispPass rx = .stop q) (m : Memory) :
    dispDrain rx m = { rx := q, bitmap := m, events := [] } := by
  rw [dispDrain_eq, h]

theorem dispDrain_of_frame {rx : List Byte} {type : Byte} {payload rest : List Byte}
    (h : dispPass rx = .frame type payload rest) (m : Memory) :
    dispDrain rx m =
      (dispDrain rest (handleFrame type payload m).bitmap).after [(handleFrame type payload m).event] := by
  rw [dispDrain_eq, h]
  rfl

theorem dispDrain_of_settled {rx : List Byte} (h : DispSettled rx) (m : Memory) :
    dispDrain rx m = { rx := rx, bitmap := m, events := [] } := dispDrain_of_stop (dispPass_of_settled h) m

/-- A frame's bytes alone: the frame is handled and nothing is left. -/
theorem dispDrain_frameBytes (type : Byte) {payload : List Byte} (h : payload.length < 65536) (m : Memory) :
    dispDrain (frameBytes type payload) m =
      { rx := [], bitmap := (handleFrame type payload m).bitmap, events := [(handleFrame type payload m).event] } := by
  have hp := dispPass_frameBytes type payload [] h
  rw [List.append_nil] at hp
  rw [dispDrain_of_frame hp, dispDrain_of_settled (rx := []) (.inl (by decide))]
  rfl

/-- Two outcomes of the loop with the same events and BITMAP, of which both or neither leave the buffer empty. What they
leave may differ in garbage (R132 and R134 keep different amounts of it). -/
structure Drained.Agree (d e : Drained) : Prop where
  bitmap : d.bitmap = e.bitmap
  events : d.events = e.events
  rx_nil : d.rx = [] ↔ e.rx = []

theorem Drained.Agree.refl (d : Drained) : d.Agree d := ⟨rfl, rfl, Iff.rfl⟩

theorem Drained.Agree.symm {d e : Drained} (h : d.Agree e) : e.Agree d := ⟨h.bitmap.symm, h.events.symm, h.rx_nil.symm⟩

theorem Drained.Agree.trans {c d e : Drained} (h : c.Agree d) (h' : d.Agree e) : c.Agree e :=
  ⟨h.bitmap.trans h'.bitmap, h.events.trans h'.events, h.rx_nil.trans h'.rx_nil⟩

theorem Drained.Agree.after {d e : Drained} (h : d.Agree e) (es : List Event) : (d.after es).Agree (e.after es) :=
  ⟨h.bitmap, congrArg (es ++ ·) h.events, h.rx_nil⟩

theorem dispDrain_garbage {g z : List Byte} (h : Garbage g z) (m : Memory) :
    (dispDrain (g ++ z) m).Agree (dispDrain z m) := by
  obtain hp | ⟨hz, ⟨q, hq⟩, r, hr⟩ := dispPass_garbage h
  · rw [dispDrain_eq, hp, ← dispDrain_eq]
    exact .refl _
  · rw [dispDrain_of_stop hq, dispDrain_of_stop hr]
    exact ⟨rfl, rfl, iff_of_false (ne_nil_of_dispPass_stop (by simp [hz]) hq) (ne_nil_of_dispPass_stop hz hr)⟩

/-- The key to R148: draining a buffer and then what it leaves with more bytes behind it is draining all the bytes at once.
By induction over the frames of the first buffer; where the loop returns, it has dropped garbage only. -/
theorem dispDrain_append (rx y : List Byte) (m : Memory) :
    (dispDrain (rx ++ y) m).Agree
      ((dispDrain ((dispDrain rx m).rx ++ y) (dispDrain rx m).bitmap).after (dispDrain rx m).events) := by
  induction rx, m using dispDrain_induction with
  | stop rx m q hp =>
    obtain ⟨g, rfl, hg⟩ := garbage_of_dispPass_stop hp
    rw [dispDrain_of_stop hp, List.append_assoc]
    exact dispDrain_garbage (hg.append y) m
  | frame rx m type payload rest hp ih =>
    rw [dispDrain_of_frame hp, dispDrain_of_frame (dispPass_append hp y)]
    simpa [Drained.after_after] using ih.after [(handleFrame type payload m).event]

/-! A stream fed in pieces (R148). -/

theorem eventsOf_append (rs qs : List Reply) : eventsOf (rs ++ qs) = eventsOf rs ++ eventsOf qs := by
  induction rs with
  | nil => rfl
  | cons r rs ih => cases r <;> simp [eventsOf, ih]

theorem repliesSince_of_append {s t : State} {rs : List Reply} (h : t.replies = s.replies ++ rs) :
    repliesSince s t = rs := by
  rw [repliesSince, h, List.drop_left' rfl]

/-- `t` is a state in which the display bytes `data`, fed from `s` on, were answered with `rs`: with any later bytes it gives
what `s` gives with `data` and those bytes. -/
structure Fed (s : State) (data : List Byte) (rs : List Reply) (t : State) : Prop where
  params : t.params = s.params
  replies : t.replies = s.replies ++ rs
  length : t.dispRx.length ≤ s.dispRx.length + data.length
  agree : ∀ later, (dispDrain (s.dispRx ++ data ++ later) s.bitmap).Agree
    ((dispDrain (t.dispRx ++ later) t.bitmap).after (eventsOf rs))

theorem Fed.refl (s : State) : Fed s [] [] s where
  params := rfl
  replies := by simp
  length := le_rfl
  agree later := by simpa [eventsOf] using .refl _

theorem Fed.trans {s t u : State} {data more : List Byte} {rs qs : List Reply} (h : Fed s data rs t)
    (h' : Fed t more qs u) : Fed s (data ++ more) (rs ++ qs) u where
  params := h'.params.trans h.params
  replies := by rw [h'.replies, h.replies, List.append_assoc]
  length := by
    have := h.length
    have := h'.length
    rw [List.length_append]
    omega
  agree later := by
    have hmore := (h'.agree later).after (eventsOf rs)
    rw [Drained.after_after, ← eventsOf_append, List.append_assoc] at hmore
    have hdata := h.agree (more ++ later)
    rw [← List.append_assoc s.dispRx, List.append_assoc]
    exact hdata.trans hmore

/-- What a DISP_INGEST within the cap shows the host is what the loop gives. -/
theorem execDispIngest_shows {s : State} {data : List Byte} (h : s.dispRx.length + data.length ≤ s.params.dispRxCap) :
    ∃ t, execDispIngest data s = .next t ∧
      eventsOf (repliesSince s t) = (dispDrain (s.dispRx ++ data) s.bitmap).events ∧
      t.bitmap = (dispDrain (s.dispRx ++ data) s.bitmap).bitmap :=
  ⟨_, execDispIngest_of_fits h, by simp [repliesSince, eventsOf], rfl⟩

/-- A DISP_INGEST within the cap feeds its bytes and leaves a settled buffer. -/
theorem execDispIngest_fed {s : State} {data : List Byte} (h : s.dispRx.length + data.length ≤ s.params.dispRxCap) :
    ∃ rs t, execDispIngest data s = .next t ∧ Fed s data rs t ∧ DispSettled t.dispRx := by
  refine ⟨_, _, execDispIngest_of_fits h, ⟨rfl, rfl, ?_, fun later => ?_⟩, dispDrain_settled _ _⟩
  · rw [← List.length_append]
    exact dispDrain_length _ _
  · simpa [eventsOf] using dispDrain_append (s.dispRx ++ data) later s.bitmap

/-- However a stream within the cap is cut, its pieces feed it; after at least one piece the buffer is settled. -/
theorem runOps_map_dispIngest_fed (pieces : List (List Byte)) {s : State}
    (h : s.dispRx.length + pieces.flatten.length ≤ s.params.dispRxCap) :
    ∃ rs t, runOps (pieces.map Instr.dispIngest) s = .next t ∧ Fed s pieces.flatten rs t ∧
      (pieces ≠ [] ∨ DispSettled s.dispRx → DispSettled t.dispRx) := by
  induction pieces generalizing s with
  | nil => exact ⟨[], s, rfl, .refl s, fun hs => hs.resolve_left (absurd rfl)⟩
  | cons d pieces ih =>
    rw [List.flatten_cons, List.length_append] at h
    obtain ⟨rs, t, ht, hfed, hsettled⟩ := execDispIngest_fed (s := s) (data := d) (by omega)
    obtain ⟨qs, u, hu, hfed', hsettled'⟩ := ih (s := t) (by have := hfed.length; rw [hfed.params]; omega)
    exact ⟨rs ++ qs, u, (runOps_cons_of_next (i := .dispIngest d) _ ht).trans hu, hfed.trans hfed',
      fun _ => hsettled' (.inr hsettled)⟩

/-- Two ways of feeding the same bytes that both leave settled buffers have shown the same, and show the same ever after. -/
theorem Fed.same {s t u : State} {data : List Byte} {rs qs : List Reply} (ht : Fed s data rs t) (hu : Fed s data qs u)
    (hts : DispSettled t.dispRx) (hus : DispSettled u.dispRx) :
    eventsOf rs = eventsOf qs ∧ t.bitmap = u.bitmap ∧
      ∀ later, (dispDrain (t.dispRx ++ later) t.bitmap).bitmap = (dispDrain (u.dispRx ++ later) u.bitmap).bitmap ∧
        (dispDrain (t.dispRx ++ later) t.bitmap).events = (dispDrain (u.dispRx ++ later) u.bitmap).events := by
  have hagree (later : List Byte) := (ht.agree later).symm.trans (hu.agree later)
  have hnow := hagree []
  rw [List.append_nil, List.append_nil, dispDrain_of_settled hts, dispDrain_of_settled hus] at hnow
  have hevents : eventsOf rs = eventsOf qs := by simpa using hnow.events
  refine ⟨hevents, hnow.bitmap, fun later => ⟨(hagree later).bitmap, ?_⟩⟩
  have hall := (hagree later).events
  rw [Drained.after_events, Drained.after_events, hevents] at hall
  exact List.append_cancel_left hall

/-! DISP_INGEST by what its loop gives. -/

theorem execDispIngest_of_drain {data : List Byte} {s : State} {d : Drained}
    (hcap : s.dispRx.length + data.length ≤ s.params.dispRxCap) (hd : dispDrain (s.dispRx ++ data) s.bitmap = d) :
    execDispIngest data s = .next (((s.withDispRx d.rx).withBitmap d.bitmap).reply (.events d.events)) := by
  rw [execDispIngest_of_fits hcap, hd]

/-- An empty ingest of a buffer without a whole frame (R132 to R136). -/
theorem execDispIngest_nil_of_stop {s : State} {q : List Byte} (hcap : s.dispRx.length ≤ s.params.dispRxCap)
    (h : dispPass s.dispRx = .stop q) : execDispIngest [] s = .next ((s.withDispRx q).reply (.events [])) :=
  execDispIngest_of_drain (data := []) (d := { rx := q, bitmap := s.bitmap, events := [] }) hcap
    (by rw [List.append_nil, dispDrain_of_stop h])

/-- R133, R137: the frame behind the first header of a buffer that holds it whole. -/
theorem frame_behind_header {rx : List Byte} {k : Nat} (hpair : FirstPair dispMagic0 dispMagic1 rx k)
    (hl : 5 + (be16At rx (k + 3)).toNat ≤ rx.length - k) :
    (rx.drop k).take (5 + (be16At rx (k + 3)).toNat) =
      frameBytes (byteOf rx (k + 2)) ((rx.drop (k + 5)).take (be16At rx (k + 3)).toNat) ∧
    dispPass rx = .frame (byteOf rx (k + 2)) ((rx.drop (k + 5)).take (be16At rx (k + 3)).toNat)
      (rx.drop (k + 5 + (be16At rx (k + 3)).toNat)) := by
  have hfind := find2_eq_some_iff_firstPair.mpr hpair
  obtain ⟨-, h0, h1, -⟩ := find2_some hfind
  have hsize : be16At (rx.drop k) 3 = be16At rx (k + 3) := by
    simp only [be16At, byteOf_drop, Nat.add_assoc]
  have htype : byteOf (rx.drop k) 2 = byteOf rx (k + 2) := byteOf_drop rx k 2
  have hpayload : slice (rx.drop k) 5 (5 + (be16At rx (k + 3)).toNat) =
      (rx.drop (k + 5)).take (be16At rx (k + 3)).toNat := by
    rw [slice, List.drop_drop, Nat.add_sub_cancel_left]
  have hz := eq_frameBytes_append (z := rx.drop k) (by rwa [byteOf_drop]) (by rwa [byteOf_drop])
    (by rwa [hsize, List.length_drop])
  obtain ⟨-, hshort⟩ | ⟨he, -⟩ := dispExtract_cases (rx.drop k)
  · rw [hsize, List.length_drop] at hshort
    omega
  · rw [hsize, htype, hpayload] at hz he
    constructor
    · rw [hz]
      refine List.take_left' ?_
      rw [frameBytes_length, List.length_take, List.length_drop]
      omega
    · rw [dispPass_of_header (by omega) hfind, he, List.drop_drop, Nat.add_assoc]

/-! Handling a frame, class by class (R138 to R145). -/

/-- With every entry above the first address, that address reads as unlisted. -/
theorem Memory.readFrom_succ_of_above {a : Nat} {m : Memory} (hm : ∀ c ∈ m, a + 1 ≤ c.1) (n : Nat) :
    Memory.readFrom (n + 1) a m = unlistedByte :: Memory.readFrom n (a + 1) m := by
  cases m with
  | nil => rfl
  | cons c m =>
    have hc : c.1 ≠ a := (Nat.lt_of_succ_le (hm c (by simp))).ne'
    exact if_neg hc

/-- Entries from the first address on read back, whatever entries lie behind them. -/
theorem Memory.readFrom_cells (a : Nat) (v : List Byte) {m : Memory} (hm : ∀ c ∈ m, a + v.length ≤ c.1) :
    Memory.readFrom v.length a (Memory.cells a v ++ m) = v := by
  induction v generalizing a with
  | nil => rfl
  | cons b t ih =>
    rw [List.length_cons] at hm ⊢
    have htail := ih (a + 1) fun c hc => by have := hm c hc; omega
    by_cases hb : b = unlistedByte
    · have hcells : Memory.cells a (b :: t) = Memory.cells (a + 1) t := if_pos hb
      have habove : ∀ c ∈ Memory.cells (a + 1) t ++ m, a + 1 ≤ c.1 := fun c hc =>
        (List.mem_append.mp hc).elim (fun h => (Memory.mem_cells h).1) fun h => by have := hm c h; omega
      rw [hcells, Memory.readFrom_succ_of_above habove, htail, hb]
    · have hcells : Memory.cells a (b :: t) = (a, b) :: Memory.cells (a + 1) t := if_neg hb
      rw [hcells, List.cons_append, Memory.readFrom, if_pos rfl, htail]

/-- R140: writing all 1024 bytes makes them the copy, whatever BITMAP held. -/
theorem Memory.copy_write_all (m : Memory) {p : List Byte} (h : p.length = 1024) : (m.write 0 p).copy = p := by
  have hwrite : m.write 0 p = Memory.cells 0 p ++ m.filter fun c => 0 + p.length ≤ c.1 := by simp [Memory.write]
  rw [Memory.copy, Memory.read, hwrite, List.filter_eq_self.mpr fun c _ => by simp, show bitmapBytes = p.length from h.symm]
  exact Memory.readFrom_cells 0 p fun c hc => by simpa using (List.mem_filter.mp hc).2

theorem handleFrame_screenshot {p : List Byte} (h : p.length = 1024) (m : Memory) :
    handleFrame typeScreenshot p m = { bitmap := m.write 0 p, event := .fullFrameReceived p } := by
  have hc : frameClass typeScreenshot p.length = .screenshot := by rw [frameClass_eq_ite, if_pos ⟨rfl, h⟩]
  simp only [handleFrame, hc, Memory.copy_write_all m h]

theorem handleFrame_diff {p : List Byte} (h : p.length % 9 = 0) (m : Memory) :
    handleFrame typeDiff p m =
      { bitmap := applyChunks (p.length / 9) p m, event := .diffApplied (applyChunks (p.length / 9) p m).copy } := by
  have hc : frameClass typeDiff p.length = .diff := by
    rw [frameClass_eq_ite, if_neg (fun hs => absurd hs.1 (by decide)), if_pos ⟨rfl, h⟩]
  simp only [handleFrame, hc]
  rfl

theorem handleFrame_unknown {type : Byte} {p : List Byte} (hs : ¬(type = 1 ∧ p.length = 1024))
    (hd : ¬(type = 2 ∧ p.length % 9 = 0)) (m : Memory) :
    handleFrame type p m = { bitmap := m, event := .unknownFrame type (BitVec.ofNat 16 p.length) } := by
  have hc : frameClass type p.length = .unknown := by rw [frameClass_eq_ite, if_neg hs, if_neg hd]
  simp only [handleFrame, hc]

/-- R63: a frame's bytes, its size written out. -/
theorem frameBytes_eq (type : Byte) {p : List Byte} (h : p.length < 65536) :
    frameBytes type p =
      [0xAA#8, 0x55#8, type, BitVec.ofNat 8 (p.length / 256), BitVec.ofNat 8 (p.length % 256)] ++ p := by
  rw [frameBytes, be16Bytes_ofNat h]
  rfl

/-- The block after a frame is handled and its event handed over, nothing else changed. -/
def State.withFrame (s : State) (type : Byte) (p : List Byte) : State :=
  (s.withBitmap (handleFrame type p s.bitmap).bitmap).reply (.events [(handleFrame type p s.bitmap).event])

/-- The block after a Diff has made BITMAP `m` (R144). -/
def State.withDiff (s : State) (m : Memory) : State := (s.withBitmap m).reply (.events [.diffApplied m.copy])

theorem State.withFrame_diff (s : State) {p : List Byte} (h : p.length % 9 = 0) :
    s.withFrame typeDiff p = s.withDiff (applyChunks (p.length / 9) p s.bitmap) := by
  rw [State.withFrame, handleFrame_diff h, State.withDiff]

section
variable {s : State} (he : s.dispRx = []) (hw : s.params.wf)
include he hw

theorem exec_frameBytes (type : Byte) {p : List Byte} (h : p.length < 65536) :
    exec (.dispIngest (frameBytes type p)) s = .next (s.withFrame type p) :=
  execDispIngest_frameBytes s type p h he hw.1

/-- A frame's row, on an empty DISP_RX. -/
theorem exec_row_of_frameInstr {type : Byte} {p : List Byte} {i : Instr} (h : p.length < 65536)
    (hi : frameInstr type p = i) : exec i s = .next (s.withFrame type p) := by
  rw [← hi, exec_frameInstr s type p h]
  exact exec_frameBytes he hw type h

theorem exec_dispDiff {p : List Byte} (h : p.length < 65536) (h9 : p.length % 9 = 0) :
    exec (.dispDiff p) s = .next (s.withDiff (applyChunks (p.length / 9) p s.bitmap)) := by
  rw [← s.withFrame_diff h9]
  refine exec_row_of_frameInstr he hw h ?_
  rw [frameInstr_eq_ite, if_neg (fun hs => absurd hs.1 (by decide)), if_pos ⟨rfl, h9⟩]

end

/-! Chunks (R141 to R143). -/

theorem applyChunks_of_block {b : Byte} {d : List Byte} (hb : b.toNat < 128) (hd : d.length = 8) (n : Nat)
    (rest : List Byte) (m : Memory) :
    applyChunks (n + 1) (b :: (d ++ rest)) m = applyChunks n rest (m.write (8 * b.toNat) d) := by
  have hslice : slice (b :: (d ++ rest)) 1 chunkLen = d := List.take_left' hd
  have hrest : (b :: (d ++ rest)).drop chunkLen = rest := List.drop_left' hd
  simp only [applyChunks, byteOf_cons_zero, if_pos hb, hslice, hrest]
  rfl

theorem applyChunks_of_stop {b : Byte} (hb : ¬b.toNat < 128) (n : Nat) (t : List Byte) (m : Memory) :
    applyChunks (n + 1) (b :: t) m = m := by
  simp only [applyChunks, byteOf_cons_zero]
  exact if_neg hb

/-- The block index of a chunk is its block byte's value. -/
theorem chunkByte_toNat (block : BitVec 7) : (0#1 ++ block : Byte).toNat = block.toNat := by
  rw [blockByte_toNat, BitVec.toNat_zero, Nat.mul_zero, Nat.zero_add]

theorem stopByte_not_lt (block : BitVec 7) : ¬(1#1 ++ block : Byte).toNat < 128 := by
  rw [blockByte_toNat]
  simp

theorem applyChunks_chunkBytes (block : BitVec 7) {d : List Byte} (hd : d.length = 8) (n : Nat) (rest : List Byte)
    (m : Memory) :
    applyChunks (n + 1) (chunkBytes 0#1 block d ++ rest) m = applyChunks n rest (m.write (8 * block.toNat) d) := by
  have hb := chunkByte_toNat block
  rw [← hb]
  exact applyChunks_of_block (by rw [hb]; exact block.isLt) hd n rest m

/-- One chunk written over BITMAP. -/
def writeChunk (m : Memory) (c : Byte × List Byte) : Memory := m.write (8 * c.1.toNat) c.2

/-- The payload of whole chunks is written chunk by chunk up to the first stop marker. -/
theorem applyChunks_flatMap {cs : List (Byte × List Byte)} (hcs : ∀ c ∈ cs, c.2.length = 8) (m : Memory) :
    applyChunks cs.length (cs.flatMap fun c => c.1 :: c.2) m =
      (cs.takeWhile fun c => c.1.toNat < 128).foldl writeChunk m := by
  induction cs generalizing m with
  | nil => rfl
  | cons c cs ih =>
    obtain ⟨hc, hcs⟩ := List.forall_mem_cons.mp hcs
    rw [List.flatMap_cons, List.length_cons, List.cons_append]
    by_cases hb : c.1.toNat < 128
    · rw [applyChunks_of_block hb hc, ih hcs, List.takeWhile_cons_of_pos (by simpa using hb), List.foldl_cons, writeChunk]
    · rw [applyChunks_of_stop hb, List.takeWhile_cons_of_neg (by simpa using hb), List.foldl_nil]

theorem byteAt_writeChunk (m : Memory) {c : Byte × List Byte} (hc : c.2.length = 8) (a : Nat) :
    (writeChunk m c).byteAt a = if c.1.toNat = a / 8 then byteOf c.2 (a % 8) else m.byteAt a := by
  rw [writeChunk, Memory.byteAt_write, hc]
  by_cases ha : c.1.toNat = a / 8
  · rw [if_pos ha, if_pos (by omega), show a - 8 * c.1.toNat = a % 8 by omega]
  · rw [if_neg ha, if_neg (by omega)]

/-- Of chunks written in order, the last that names a block stands (R143). -/
theorem byteAt_foldl_writeChunk {cs : List (Byte × List Byte)} (hcs : ∀ c ∈ cs, c.2.length = 8) (m : Memory) (a : Nat) :
    (cs.foldl writeChunk m).byteAt a =
      (cs.reverse.find? fun c => c.1.toNat == a / 8).elim (m.byteAt a) fun c => byteOf c.2 (a % 8) := by
  induction cs using List.reverseRecOn with
  | nil => rfl
  | append_singleton cs c ih =>
    have hc : c.2.length = 8 := hcs c (by simp)
    rw [List.foldl_append, List.foldl_cons, List.foldl_nil, byteAt_writeChunk _ hc, List.reverse_append,
      List.reverse_singleton, List.singleton_append, List.find?_cons, ih fun c' h => hcs c' (by simp [h])]
    by_cases hb : c.1.toNat = a / 8
    · rw [if_pos hb, show (c.1.toNat == a / 8) = true from beq_iff_eq.mpr hb]
      rfl
    · rw [if_neg hb, show (c.1.toNat == a / 8) = false from beq_eq_false_iff_ne.mpr hb]

theorem length_flatMap_chunks {cs : List (Byte × List Byte)} (hcs : ∀ c ∈ cs, c.2.length = 8) :
    (cs.flatMap fun c => c.1 :: c.2).length = 9 * cs.length := by
  induction cs with
  | nil => rfl
  | cons c cs ih =>
    obtain ⟨hc, hcs⟩ := List.forall_mem_cons.mp hcs
    rw [List.flatMap_cons, List.length_append, ih hcs, List.length_cons, List.length_cons, hc]
    omega

section
variable {s : State} (he : s.dispRx = []) (hw : s.params.wf)
include he hw

/-- A chunk or stop marker runs as the Diff of one chunk. -/
theorem execDispIngest_chunkBytes (stop : BitVec 1) (block : BitVec 7) {d : List Byte} (hd : d.length = 8) :
    execDispIngest (frameBytes typeDiff (chunkBytes stop block d)) s =
      .next (s.withDiff (applyChunks 1 (chunkBytes stop block d) s.bitmap)) := by
  have hl : (chunkBytes stop block d).length = 9 := by rw [chunkBytes, List.length_cons, hd]
  have hx := exec_frameBytes he hw typeDiff (p := chunkBytes stop block d) (by omega)
  rwa [s.withFrame_diff (by omega), hl] at hx

theorem exec_diffChunk (block : BitVec 7) {d : List Byte} (hd : d.length = 8) :
    exec (.diffChunk block d) s = .next (s.withDiff (s.bitmap.write (8 * block.toNat) d)) := by
  refine (whenFormed_of_formed (chunkFits_iff.mpr hd) _).trans ?_
  have hchunk := applyChunks_chunkBytes block hd 0 [] s.bitmap
  rw [List.append_nil] at hchunk
  rw [execDispIngest_chunkBytes he hw 0#1 block hd, hchunk, applyChunks]

theorem exec_diffStop (block : BitVec 7) {u : List Byte} (hu : 8 ≤ u.length) :
    exec (.diffStop block u) s = .next (s.withDiff s.bitmap) := by
  refine (whenFormed_of_formed (stopFits_iff.mpr hu) _).trans ?_
  have hd : (u.take blockLen).length = 8 := List.length_take_of_le hu
  rw [execDispIngest_chunkBytes he hw 1#1 block hd, chunkBytes, applyChunks_of_stop (stopByte_not_lt block)]

end

/-! A Diff payload run chunk by chunk. -/

theorem exists_chunk {p : List Byte} {n : Nat} (h : p.length = 9 * (n + 1)) :
    ∃ (stop : BitVec 1) (block : BitVec 7) (d rest : List Byte),
      p = chunkBytes stop block d ++ rest ∧ d.length = 8 ∧ rest.length = 9 * n := by
  cases p with
  | nil => simp at h
  | cons b t =>
    rw [List.length_cons] at h
    have hb : (b.extractLsb' 7 1 ++ b.extractLsb' 0 7 : Byte) = b := by
      apply BitVec.eq_of_toNat_eq
      have := b.isLt
      rw [blockByte_toNat]
      simp only [BitVec.extractLsb'_toNat, Nat.shiftRight_eq_div_pow]
      omega
    refine ⟨b.extractLsb' 7 1, b.extractLsb' 0 7, t.take 8, t.drop 8, ?_, ?_, ?_⟩
    · rw [chunkBytes, hb, List.cons_append, List.take_append_drop]
    · rw [List.length_take]
      omega
    · rw [List.length_drop]
      omega

theorem runSteps_succ_of_next {s t : State} (n : Nat) (h : step s = .next t) : runSteps (n + 1) s = runSteps n t := by
  rw [runSteps, h]

theorem runSteps_of_idle (n : Nat) {s : State} (h : s.inbox = []) : runSteps n s = .next s := by
  induction n with
  | zero => rfl
  | succ n ih => rw [runSteps_succ_of_next n (Proofs.idleBlockDoesNotChange s h), ih]

/-- Running the payload's chunks leaves what the Diff leaves; `vs` are the copies their events carry, and the last of them,
behind the copy from before, is the copy at the end. -/
theorem runSteps_chunks (n : Nat) {s : State} {p : List Byte} (hp : p.length = 9 * n) (he : s.dispRx = [])
    (hw : s.params.wf) (hi : s.inbox = requeue .diffChunk p []) :
    ∃ t vs, runSteps n s = .next t ∧ t.bitmap = applyChunks n p s.bitmap ∧ t.dispRx = [] ∧
      t.replies = s.replies ++ vs.map (fun v => .events [.diffApplied v]) ∧
      (s.bitmap.copy :: vs).getLast? = some t.bitmap.copy ∧ (n ≠ 0 → vs ≠ []) := by
  induction n generalizing s p with
  | zero => exact ⟨s, [], rfl, rfl, he, by simp, rfl, fun h => absurd rfl h⟩
  | succ n ih =>
    obtain ⟨stop, block, d, rest, rfl, hd, hrest⟩ := exists_chunk hp
    obtain rfl | rfl := BitVec.eq_zero_or_eq_one stop
    · have hdecode : decode .diffChunk (chunkBytes 0#1 block d ++ rest) = .ok (.diffChunk block d, rest) :=
        decodeChunk_chunkBytes block rest (chunkFits_iff.mpr hd)
      have hstep := (step_eq_exec_of_fetch (hi ▸ fetch_requeue [] hdecode)).trans
        (exec_diffChunk (s := s.withInbox (requeue .diffChunk rest [])) he hw block hd)
      obtain ⟨t, vs, hrun, hbitmap, hrx, hreplies, hlast, -⟩ := ih
        (s := (s.withInbox (requeue .diffChunk rest [])).withDiff (s.bitmap.write (8 * block.toNat) d)) hrest he hw rfl
      refine ⟨t, _ :: vs, (runSteps_succ_of_next n hstep).trans hrun, ?_, hrx, ?_, hlast, fun _ => List.cons_ne_nil _ _⟩
      · rw [applyChunks_chunkBytes block hd]
        exact hbitmap
      · rw [hreplies]
        exact List.append_assoc _ _ _
    · have hlen : 8 ≤ (d ++ rest).length := by
        rw [List.length_append]
        omega
      have hdecode : decode .diffChunk (chunkBytes 1#1 block d ++ rest) = .ok (.diffStop block (d ++ rest), []) :=
        decodeChunk_stop block (stopFits_iff.mpr hlen)
      have hstep := (step_eq_exec_of_fetch (hi ▸ fetch_requeue [] hdecode)).trans
        (exec_diffStop (s := s.withInbox []) he hw block hlen)
      refine ⟨_, [_], (runSteps_succ_of_next n hstep).trans (runSteps_of_idle n rfl), ?_, he, rfl, rfl,
        fun _ => List.cons_ne_nil _ _⟩
      rw [chunkBytes, List.cons_append, applyChunks_of_stop (stopByte_not_lt block)]
      rfl

theorem eventsOf_map_diffApplied (vs : List (List Byte)) :
    eventsOf (vs.map fun v => .events [.diffApplied v]) = vs.map Event.diffApplied := by
  induction vs with
  | nil => rfl
  | cons v vs ih => rw [List.map_cons, eventsOf, ih, List.map_cons, List.singleton_append]

/-! Settled buffers and bounds of the command framer's loop, and of the display's (R150, R151, R187). -/

theorem fetchPacket_of_settled {rx : List Byte} (h : CmdSettled rx) (p : Params) :
    fetchPacket p rx = { result := .needMore, rx := rx } := by
  obtain hl | ⟨h0, h1, hl⟩ := h
  · exact if_pos hl
  obtain ⟨-, hf⟩ | ⟨h8, hn, -⟩ | ⟨k, h8, hk, hf⟩ := fetchPacket_cases p rx
  · exact hf
  · exact absurd ⟨h0, h1⟩ (find2_none hn 0 (by omega))
  · cases hk.symm.trans (find2_eq_some_zero (by omega) h0 h1)
    rw [hf, List.drop_zero]
    obtain ⟨he, -⟩ | ⟨hwhole, -⟩ | ⟨hwhole, -⟩ := pktExtract_cases p rx
    · exact he
    · omega
    · omega

theorem cmdDrain_of_settled {rx : List Byte} (h : CmdSettled rx) (p : Params) :
    cmdDrain p rx = { rx := rx, results := [.needMore] } := by
  rw [cmdDrain_eq, fetchPacket_of_settled h, if_pos rfl]

/-- R150: each event took at least 5 bytes. -/
theorem dispDrain_events_length (rx : List Byte) (m : Memory) : 5 * (dispDrain rx m).events.length ≤ rx.length := by
  induction rx, m using dispDrain_induction with
  | stop rx m q hp => simp [dispDrain_of_stop hp]
  | frame rx m type payload rest hp ih =>
    have := dispPass_frame_length hp
    rw [dispDrain_of_frame hp, Drained.after_events, List.singleton_append, List.length_cons]
    omega

/-- R187: each result but the last took at least 2 bytes. -/
theorem cmdDrain_results_length (p : Params) (rx : List Byte) : 2 * (cmdDrain p rx).results.length ≤ rx.length + 2 := by
  induction rx using cmdDrain_induction p with
  | stop rx h => simp [cmdDrain_eq, h]
  | go rx h ih =>
    have := fetchPacket_consumes h
    rw [cmdDrain_eq, if_neg h, List.length_cons]
    omega

end Sys2Proof.Machine

namespace Sys2Proof.Proofs

open Machine

/-- Settles O44: the pieces and the whole feed the same bytes and leave settled buffers, so no later bytes tell them
apart. -/
theorem displayParserDoesNotSeeTheCuts : Obligations.DisplayParserDoesNotSeeTheCuts := by
  intro s pieces hpieces hcap
  obtain ⟨rs, t, hrun, ht, hts⟩ := runOps_map_dispIngest_fed pieces hcap
  obtain ⟨qs, u, hexec, hu, hus⟩ := execDispIngest_fed hcap
  obtain ⟨hevents, hbitmap, hlater⟩ := ht.same hu (hts hpieces) hus
  refine ⟨t, u, hrun, hexec, ?_, hbitmap, fun later htl hul => ?_⟩
  · rw [repliesSince_of_append ht.replies, repliesSince_of_append hu.replies, hevents]
  · obtain ⟨t', ht', hte, htb⟩ := execDispIngest_shows htl
    obtain ⟨u', hu', hue, hub⟩ := execDispIngest_shows hul
    exact ⟨t', u', ht', hu', by rw [hte, hue, (hlater later).2], by rw [htb, hub, (hlater later).1]⟩

/-- Settles O45: the pieces feed the frame's bytes, which fed whole leave no byte and give the one event. -/
theorem anySplitOfAFullFrameGivesItOnce : Obligations.AnySplitOfAFullFrameGivesItOnce := by
  intro s p pieces hp he hw hpieces
  have hbytes : pieces.flatten = frameBytes typeScreenshot p := by
    rw [hpieces, frameBytes_eq _ (by omega), hp]
    rfl
  have hcap : s.dispRx.length + pieces.flatten.length ≤ s.params.dispRxCap := by
    rw [he, hbytes, frameBytes_length, List.length_nil]
    have := hw.1
    omega
  obtain ⟨rs, t, hrun, hfed, hsettled⟩ := runOps_map_dispIngest_fed pieces hcap
  have hts : DispSettled t.dispRx := hsettled (.inr (.inl (by simp [he])))
  have hagree := hfed.agree []
  rw [he, List.nil_append, List.append_nil, List.append_nil, hbytes, dispDrain_frameBytes _ (by omega),
    handleFrame_screenshot hp, dispDrain_of_settled hts] at hagree
  refine ⟨t, hrun, ?_, ?_, hagree.rx_nil.mp rfl⟩
  · rw [repliesSince_of_append hfed.replies]
    simpa using hagree.events.symm
  · have hbitmap : s.bitmap.write 0 p = t.bitmap := hagree.bitmap
    rw [← hbitmap, Memory.copy_write_all _ hp]

/-- Settles O30: each of the three buffers makes the first pass return. -/
theorem displayParserWaitsWithoutAWholeFrame : Obligations.DisplayParserWaitsWithoutAWholeFrame := by
  intro s hcap
  refine ⟨fun hl => ?_, fun hl hpair => ?_, fun k hl hpair hshort => ?_⟩
  · exact execDispIngest_nil_of_stop hcap (dispPass_of_short hl)
  · exact execDispIngest_nil_of_stop hcap (dispPass_of_no_header hl (find2_eq_none_of_no_pair hpair))
  · refine execDispIngest_nil_of_stop hcap ?_
    rw [dispPass_of_header hl (find2_eq_some_iff_firstPair.mpr hpair), dispExtract_of_short]
    rw [List.length_drop, be16At, byteOf_drop, byteOf_drop]
    exact hshort

/-- Settles O31: the pass takes the frame's bytes, which ingested alone are handled the same, and the loop goes on. -/
theorem displayParserTakesAWholeFrame : Obligations.DisplayParserTakesAWholeFrame := by
  intro s k hcap hpair hl hwhole size frame
  obtain ⟨hframe, hpass⟩ := frame_behind_header hpair hwhole
  have hsize : ((s.dispRx.drop (k + 5)).take size).length < 65536 := by
    rw [List.length_take]
    have := (be16At s.dispRx (k + 3)).isLt
    omega
  have hframeCap : ([] : List Byte).length + frame.length ≤ s.params.dispRxCap := by
    simp only [frame, List.length_take, List.length_drop, List.length_nil]
    omega
  have hrestCap : (s.dispRx.drop (k + 5 + size)).length + ([] : List Byte).length ≤ s.params.dispRxCap := by
    rw [List.length_drop, List.length_nil]
    omega
  have hdecode := decodeFrame_frameBytes (byteOf s.dispRx (k + 2)) _ [] hsize
  have hdrain := dispDrain_frameBytes (byteOf s.dispRx (k + 2)) hsize s.bitmap
  rw [List.append_nil, ← hframe] at hdecode
  rw [← hframe] at hdrain
  exact ⟨hdecode, _, _, _, _, execDispIngest_of_drain hframeCap hdrain, rfl, rfl,
    execDispIngest_of_drain (data := []) hrestCap (congrArg (dispDrain · _) (List.append_nil _)), rfl,
    execDispIngest_of_drain (data := []) hcap
      ((congrArg (dispDrain · _) (List.append_nil _)).trans (dispDrain_of_frame hpass s.bitmap))⟩

/-- Settles O32: the frame's bytes and its row are handled as a Screenshot. -/
theorem screenshotReplacesTheBitmap : Obligations.ScreenshotReplacesTheBitmap := by
  intro s p hp he hw
  have hbytes : frameBytes typeScreenshot p = [0xAA#8, 0x55#8, 0x01#8, 0x04#8, 0x00#8] ++ p := by
    rw [frameBytes_eq _ (by omega), hp]
    rfl
  have hrow : frameInstr typeScreenshot p = .dispScreenshot p := by rw [frameInstr_eq_ite, if_pos ⟨rfl, hp⟩]
  have hingest := exec_frameBytes he hw typeScreenshot (p := p) (by omega)
  have ht : s.withFrame typeScreenshot p = (s.withBitmap (s.bitmap.write 0 p)).reply (.events [.fullFrameReceived p]) := by
    rw [State.withFrame, handleFrame_screenshot hp]
  rw [hbytes] at hingest
  refine ⟨s.withFrame typeScreenshot p, exec_row_of_frameInstr he hw (by omega) hrow, hingest, fun a => ?_, ?_, ?_⟩ <;>
    rw [ht]
  · simp [Memory.byteAt_write, hp]
  · exact s.bitmap.copy_write_all hp
  · rfl

/-- Settles O33: the chunks before the first stop marker are written in order, and the last that names a block stands. -/
theorem diffAppliesItsChunksUpToTheStop : Obligations.DiffAppliesItsChunksUpToTheStop := by
  intro s cs hcs hn he hw p
  have hlen : p.length = 9 * cs.length := length_flatMap_chunks hcs
  have hl : p.length < 65536 := by omega
  have h9 : p.length % 9 = 0 := by omega
  have hingest := exec_frameBytes he hw typeDiff hl
  rw [s.withFrame_diff h9, frameBytes_eq _ hl] at hingest
  refine ⟨_, exec_dispDiff he hw hl h9, hingest, fun a => ?_, rfl⟩
  have hchunks : (s.withDiff (applyChunks (p.length / 9) p s.bitmap)).bitmap =
      (cs.takeWhile fun c => c.1.toNat < 128).foldl writeChunk s.bitmap := by
    rw [← applyChunks_flatMap hcs, hlen, Nat.mul_div_cancel_left _ (by omega)]
    rfl
  rw [hchunks, byteAt_foldl_writeChunk fun c hc => hcs c (List.takeWhile_subset _ hc)]
  cases (cs.takeWhile fun c => c.1.toNat < 128).reverse.find? fun c => c.1.toNat == a / 8 <;> rfl

/-- Settles O35: the chunk's write, read byte by byte. -/
theorem chunkReplacesItsBlock : Obligations.ChunkReplacesItsBlock := by
  intro s b d hd he hw
  refine ⟨_, exec_diffChunk he hw b hd, fun a => ?_, rfl⟩
  have hwrite := s.bitmap.byteAt_write (8 * b.toNat) d a
  rwa [hd] at hwrite

/-- Settles O37: the run of the chunks leaves what the whole payload's chunks leave. -/
theorem chunkByChunkIsTheDiff : Obligations.ChunkByChunkIsTheDiff := by
  intro s p h9 hl he hw hi
  have hu := exec_dispDiff he hw hl h9
  by_cases hp : p = []
  · subst hp
    exact ⟨s, _, rfl, hu, rfl, he, by simp [repliesSince, eventsOf], fun h => absurd rfl h⟩
  rw [← requeue_of_ne_nil [] hp] at hi
  obtain ⟨t, vs, hrun, hbitmap, hrx, hreplies, hlast, hne⟩ := runSteps_chunks (p.length / 9) (by omega) he hw hi
  have hvs : vs.getLast? = some t.bitmap.copy := by
    have := List.length_pos_iff.mpr hp
    obtain ⟨v, vs, rfl⟩ := List.exists_cons_of_ne_nil (hne (by omega))
    exact hlast
  refine ⟨t, _, hrun, hu, hbitmap, hrx, ?_, fun _ => ?_⟩ <;>
    rw [repliesSince_of_append hreplies, eventsOf_map_diffApplied]
  · simp
  · rw [List.getLast?_map, hvs, hbitmap]
    rfl

/-- Settles O39: the pixel index in rows of 16 bytes. -/
theorem pixelReadGivesItsBit : Obligations.PixelReadGivesItsBit := by
  intro s x y
  refine ⟨fun hx hy => ?_, fun hout => if_pos hout⟩
  have hbyte : pixelIndex x y / 8 = 16 * y.toNat + x.toNat / 8 := by rw [pixelIndex]; omega
  have hbit : pixelIndex x y % 8 = x.toNat % 8 := by rw [pixelIndex]; omega
  rw [← hbyte, ← hbit]
  exact if_neg (by omega)

/-- Settles O40: the copy that DISP_READ hands over. -/
theorem dispReadGivesTheBitmap : Obligations.DispReadGivesTheBitmap :=
  fun s => ⟨s.bitmap.copy, rfl, s.bitmap.copy_length, fun hwf _ ha => Memory.copy_getElem? hwf ha⟩

/-- Settles O42: on a settled buffer each loop returns at its first pass. -/
theorem emptyIngestChangesNothing : Obligations.EmptyIngestChangesNothing := by
  intro s
  refine ⟨fun hs hcap => execDispIngest_nil_of_stop hcap (dispPass_of_settled hs), fun hs hcap => ?_⟩
  have hx := execCmdIngest_of_fits (data := []) hcap
  rwa [List.append_nil, cmdDrain_of_settled hs] at hx

/-- Settles O43: a refused ingest has no events or results, any other those of its loop. -/
theorem ingestsEndWithinTheirBounds : Obligations.IngestsEndWithinTheirBounds := by
  constructor
  · intro s t d es h hr
    obtain ⟨rfl, -⟩ | ⟨rfl, -⟩ := execDispIngest_eq_next h
    · simp at hr
    · have hlen := dispDrain_events_length (s.dispRx ++ d) s.bitmap
      obtain rfl : (dispDrain (s.dispRx ++ d) s.bitmap).events = es := by simpa using hr
      rw [List.length_append] at hlen
      omega
  · intro s t d rs h hr
    obtain ⟨rfl, -⟩ | ⟨rfl, -⟩ := execCmdIngest_eq_next h
    · simp at hr
    · have hlen := cmdDrain_results_length s.params (s.cmdRx ++ d)
      obtain rfl : (cmdDrain s.params (s.cmdRx ++ d)).results = rs := by simpa using hr
      rw [List.length_append] at hlen
      omega

/-- Settles O34: the frame's bytes and its row are handled as an unknown frame. -/
theorem unknownFrameIsOnlyReported : Obligations.UnknownFrameIsOnlyReported := by
  intro s type p hl hs hd he hw
  have hrow : frameInstr type p = .dispUnknown type p := by rw [frameInstr_eq_ite, if_neg hs, if_neg hd]
  have hingest := exec_frameBytes he hw type hl
  have ht : s.withFrame type p = s.reply (.events [.unknownFrame type (BitVec.ofNat 16 p.length)]) := by
    rw [State.withFrame, handleFrame_unknown hs hd, State.withBitmap_self]
  rw [ht, frameBytes_eq _ hl] at hingest
  refine ⟨BitVec.ofNat 16 p.length, ?_, ?_, hingest⟩
  · rw [BitVec.toNat_ofNat, Nat.mod_eq_of_lt hl]
  · rw [← ht]
    exact exec_row_of_frameInstr he hw hl hrow

/-- Settles O36: the stop marker's Diff writes no chunk. -/
theorem stopMarkerAndKeepaliveChangeNothing : Obligations.StopMarkerAndKeepaliveChangeNothing :=
  fun _ => ⟨fun b _ hu he hw => exec_diffStop he hw b hu, rfl⟩

end Sys2Proof.Proofs
end

section
/-! Proofs for the command framer's statements (43_command_framer.md R160 to R188): the packet that is built, what one decode
attempt takes from a buffer, how a de-obfuscated region is judged, CMD_INGEST as repeated attempts, and that the command parser
does not see how its stream is cut. -/

namespace Sys2Proof.Machine

/-! The encoder (R160 to R164). -/

theorem exec_pktBuild_of_long (s : State) (type : Word) {q : List Byte} (h : 65530 < q.length) :
    exec (.pktBuild type q) s = .next (s.reply (.lengthOverflow q.length)) := if_pos h

theorem exec_pktBuild_of_fits (s : State) (type : Word) {q : List Byte} (h : q.length ≤ 65530) :
    exec (.pktBuild type q) s = .next (s.reply (.bytes (buildPacket s.params.xorKey (paddedMessage type q)))) :=
  if_neg (Nat.not_lt.mpr h)

/-- R43: the two bytes of a number that fits a u16, least significant first. -/
theorem le16Bytes_ofNat {n : Nat} (h : n < 65536) : le16Bytes (BitVec.ofNat 16 n) = littleBytes n :=
  congrArg List.reverse (be16Bytes_ofNat h)

theorem le16Bytes_eq_littleBytes (w : Word) : le16Bytes w = littleBytes w.toNat := by
  rw [← le16Bytes_ofNat w.isLt, BitVec.ofNat_toNat, BitVec.setWidth_eq]

/-- R161: the pad byte behind a payload of odd length. -/
def padOf (q : List Byte) : List Byte := if q.length % 2 = 1 then [0x00#8] else []

theorem padOf_length (q : List Byte) : (padOf q).length = q.length % 2 := by
  rw [padOf]
  split
  · rw [List.length_singleton]
    omega
  · rw [List.length_nil]
    omega

/-- R161: the padded message is a message whose body is the payload and its pad. -/
theorem paddedMessage_eq (type : Word) (q : List Byte) :
    paddedMessage type q = messageBytes type (.full (BitVec.ofNat 16 q.length) (q ++ padOf q)) := by
  have hodd : (le16Bytes type ++ le16Bytes (BitVec.ofNat 16 q.length) ++ q).length % 2 = q.length % 2 := by
    simp only [List.length_append, le16Bytes_length]
    omega
  simp only [paddedMessage, hodd, messageBytes, tailBytes, padOf]
  split <;> simp

theorem paddedMessage_length (type : Word) (q : List Byte) :
    (paddedMessage type q).length = 4 + (q.length + q.length % 2) := by
  rw [paddedMessage_eq, Laws.messageBytes_length, Laws.tailLength, List.length_append, padOf_length]
  omega

/-- R163, R164: the packet of a message that msgLen can count, byte for byte. -/
theorem buildPacket_eq (key : Vector Byte 16) {m : List Byte} (h : m.length < 65536) :
    buildPacket key m = [0xAB#8, 0xCD#8] ++ littleBytes m.length ++
      xorByIndex key (m ++ littleBytes (crc16 m).toNat) ++ [0xDC#8, 0xBA#8] := by
  rw [buildPacket, packetBytes, xorApply_length, List.length_append, le16Bytes_length, Nat.add_sub_cancel,
    le16Bytes_ofNat h, le16Bytes_eq_littleBytes, xorApply_eq_xorByIndex]
  rfl

/-! Judging a region (R178 to R184). -/

/-- R180, R181: the CRC comparison as an equation. -/
theorem judgeMessage_eq (enforce : Bool) (m : List Byte) (crcRx : Word) :
    judgeMessage enforce m crcRx =
      if enforce = true ∧ crc16 m ≠ crcRx then .malformedCrc crcRx (crc16 m)
      else .packet { type := (messageFields m).type, plen := (messageFields m).plen, body := (messageFields m).body,
                     payload := (messageFields m).payload, crcRx := crcRx, crcCalc := crc16 m,
                     crcOk := decide (crc16 m = crcRx) } := by
  simp only [judgeMessage, crcOk, beq_eq_decide, decide_eq_false_iff_not]

theorem judgeMessage_of_crc (enforce : Bool) (m : List Byte) :
    judgeMessage enforce m (crc16 m) =
      .packet { type := (messageFields m).type, plen := (messageFields m).plen, body := (messageFields m).body,
                payload := (messageFields m).payload, crcRx := crc16 m, crcCalc := crc16 m, crcOk := true } := by
  rw [judgeMessage_eq, if_neg fun h => h.2 rfl, decide_eq_true rfl]

/-- R182, R183: the fields of a message, without the case distinction on its length where it changes nothing. -/
theorem messageFields_eq (m : List Byte) :
    messageFields m =
      { type := le16At m 0, plen := if 4 ≤ m.length then some (le16At m 2) else none, body := m.drop 4,
        payload := if 4 ≤ m.length then (m.drop 4).take (le16At m 2).toNat else [] } := by
  rw [messageFields]
  split
  · simp only [← List.take_eq_take_min]
  · rw [List.drop_of_length_le (by omega)]

/-- R179 to R184: a message and its received CRC are judged as the rules say; MalformedShort has no CRC to compare. -/
theorem packetResult_eq (enforce : Bool) (m : List Byte) (crcRx : Word) :
    packetResult enforce m crcRx =
      if m.length < 2 then .malformedShort (BitVec.ofNat 16 m.length) else judgeMessage enforce m crcRx := by
  rw [packetResult, judgeMessage_eq, messageFields_eq]

/-- R178: opening a region of `n + 2` bytes. -/
theorem openRegion_eq_packetResult (p : Params) {n : Word} {r : List Byte} (h : r.length = n.toNat + 2) :
    openRegion p n r =
      packetResult p.crcEnforce ((xorByIndex p.xorKey r).take n.toNat) (le16At (xorByIndex p.xorKey r) n.toNat) := by
  rw [← xorApply_eq_xorByIndex]
  have hlen : ((xorApply p.xorKey r).take n.toNat).length = n.toNat := by
    rw [List.length_take, xorApply_length]
    omega
  rw [packetResult_eq, hlen, BitVec.ofNat_toNat, BitVec.setWidth_eq, openRegion]

theorem le16At_append_pair (m : List Byte) (c0 c1 : Byte) : le16At (m ++ [c0, c1]) m.length = le16 c0 c1 := by
  rw [le16At, byteOf_append_right _ _ _ le_rfl, byteOf_append_right _ _ _ (Nat.le_add_right _ _), Nat.sub_self,
    Nat.add_sub_cancel_left]
  rfl

theorem xorApply_append_pair_length (key : Vector Byte 16) (m : List Byte) (c0 c1 : Byte) :
    (xorApply key (m ++ [c0, c1])).length = m.length + 2 := by
  rw [xorApply_length, List.length_append, List.length_cons, List.length_singleton]

/-- R178, R179: an obfuscated message with two CRC bytes is de-obfuscated and judged. -/
theorem openRegion_xorApply (p : Params) {m : List Byte} (c0 c1 : Byte) (h2 : 2 ≤ m.length) (h : m.length < 65536) :
    openRegion p (BitVec.ofNat 16 m.length) (xorApply p.xorKey (m ++ [c0, c1])) =
      judgeMessage p.crcEnforce m (le16 c0 c1) := by
  have hn : (BitVec.ofNat 16 m.length).toNat = m.length := by rw [BitVec.toNat_ofNat, Nat.mod_eq_of_lt h]
  rw [openRegion, xorApply_xorApply, hn, if_neg (by omega), List.take_left' rfl, le16At_append_pair]

/-! One decode attempt (R172 to R184). -/

theorem exec_pktFetch_of_fetch {s : State} {f : Fetch} (h : fetchPacket s.params s.cmdRx = f) :
    exec .pktFetch s = .next ((s.withCmdRx f.rx).reply (.fetch f.result)) := by
  rw [← h]
  rfl

theorem fetchPacket_of_short (p : Params) {rx : List Byte} (h : rx.length < 8) :
    fetchPacket p rx = { result := .needMore, rx := rx } := if_pos h

theorem fetchPacket_of_no_header (p : Params) {rx : List Byte} (hl : 8 ≤ rx.length)
    (h : find2 cmdHeader0 cmdHeader1 rx = none) :
    fetchPacket p rx = { result := .needMore, rx := partialHeader rx } := by
  rw [fetchPacket, if_neg (by omega), h]

theorem fetchPacket_of_header (p : Params) {rx : List Byte} {k : Nat} (hl : 8 ≤ rx.length)
    (h : find2 cmdHeader0 cmdHeader1 rx = some k) : fetchPacket p rx = pktExtract p (rx.drop k) := by
  rw [fetchPacket, if_neg (by omega), h]

/-- Of any length, a buffer without a header needs more. -/
theorem fetchPacket_needMore_of_no_header (p : Params) {rx : List Byte} (h : find2 cmdHeader0 cmdHeader1 rx = none) :
    (fetchPacket p rx).result = .needMore := by
  by_cases hl : rx.length < 8
  · rw [fetchPacket_of_short p hl]
  · rw [fetchPacket_of_no_header p (by omega) h]

/-- R175, R176: a header without its whole packet. -/
theorem pktExtract_of_short (p : Params) {rx : List Byte} (h : rx.length < 8 ∨ rx.length < 8 + (le16At rx 2).toNat) :
    pktExtract p rx = { result := .needMore, rx := rx } := by
  obtain ⟨he, -⟩ | ⟨hl, -⟩ | ⟨hl, -⟩ := pktExtract_cases p rx
  · exact he
  · omega
  · omega

/-- R177: a whole packet without its footer. -/
theorem pktExtract_of_bad_footer (p : Params) {rx : List Byte} (hl : 8 + (le16At rx 2).toNat ≤ rx.length)
    (h : ¬PairAt cmdFooter0 cmdFooter1 rx (6 + (le16At rx 2).toNat)) :
    pktExtract p rx = { result := .resync, rx := rx.drop 2 } := by
  obtain ⟨-, hshort⟩ | ⟨-, -, he⟩ | ⟨-, h0, h1, -⟩ := pktExtract_cases p rx
  · omega
  · exact he
  · exact absurd (pairAt_iff.mpr ⟨by omega, h0, by rwa [Nat.add_right_comm]⟩) h

/-- R178: a whole packet with its footer. -/
theorem pktExtract_of_footer (p : Params) {rx : List Byte} (hl : 8 + (le16At rx 2).toNat ≤ rx.length)
    (h : PairAt cmdFooter0 cmdFooter1 rx (6 + (le16At rx 2).toNat)) :
    pktExtract p rx = { result := openRegion p (le16At rx 2) (slice rx 4 (6 + (le16At rx 2).toNat)),
                        rx := rx.drop (8 + (le16At rx 2).toNat) } := by
  obtain ⟨-, h0, h1⟩ := pairAt_iff.mp h
  rw [Nat.add_right_comm] at h1
  obtain ⟨-, hshort⟩ | ⟨-, hbad, -⟩ | ⟨-, -, -, he⟩ := pktExtract_cases p rx
  · omega
  · exact absurd hbad (not_or.mpr ⟨not_not.mpr h0, not_not.mpr h1⟩)
  · exact he

theorem le16At_drop (rx : List Byte) (k o : Nat) : le16At (rx.drop k) o = le16At rx (k + o) := by
  simp only [le16At, byteOf_drop, Nat.add_assoc]

theorem pairAt_drop {b0 b1 : Byte} {rx : List Byte} {k i : Nat} :
    PairAt b0 b1 (rx.drop k) i ↔ PairAt b0 b1 rx (k + i) := by
  simp only [PairAt, List.getElem?_drop, Nat.add_assoc]

theorem pairAt_append_left {b0 b1 : Byte} {s t : List Byte} {k : Nat} (h : k + 1 < s.length) :
    PairAt b0 b1 (s ++ t) k ↔ PairAt b0 b1 s k := by
  rw [PairAt, List.getElem?_append_left (by omega), List.getElem?_append_left h]

/-- R174: what stays buffered is the byte AB, or nothing. -/
theorem partialHeader_eq (rx : List Byte) :
    partialHeader rx = if rx.getLast? = some cmdHeader0 then [cmdHeader0] else [] := by
  rw [partialHeader]
  split_ifs with h
  · obtain ⟨g, rfl⟩ := List.getLast?_eq_some_iff.mp h
    simp [keepLast]
  · rfl

/-! Packets by themselves (R67, R172, R177, R186). -/

/-- An ingest by what its loop gives. -/
theorem execCmdIngest_of_drain {data : List Byte} {s : State} {d : Fetches}
    (hcap : s.cmdRx.length + data.length ≤ s.params.cmdRxCap) (hd : cmdDrain s.params (s.cmdRx ++ data) = d) :
    execCmdIngest data s = .next ((s.withCmdRx d.rx).reply (.fetches d.results)) := by
  rw [execCmdIngest_of_fits hcap, hd]

theorem cmdDrain_of_needMore {p : Params} {rx : List Byte} (h : (fetchPacket p rx).result = .needMore) :
    cmdDrain p rx = { rx := (fetchPacket p rx).rx, results := [.needMore] } := by
  rw [cmdDrain_eq, if_pos h]

theorem cmdDrain_of_fetch {p : Params} {rx : List Byte} {f : Fetch} (hf : fetchPacket p rx = f)
    (h : f.result ≠ .needMore) :
    cmdDrain p rx = { rx := (cmdDrain p f.rx).rx, results := f.result :: (cmdDrain p f.rx).results } := by
  rw [cmdDrain_eq, hf, if_neg h]

/-- A packet with its footer is opened, and nothing is left of it. -/
theorem cmdDrain_packetBytes (p : Params) {region : List Byte} (h2 : 2 ≤ region.length) (h : region.length ≤ 65537) :
    cmdDrain p (packetBytes region cmdFooter0 cmdFooter1) =
      { rx := [], results := [openRegion p (BitVec.ofNat 16 (region.length - 2)) region, .needMore] } := by
  have hf := fetchPacket_packetBytes p region [] cmdFooter0 cmdFooter1 h2 h
  rw [List.append_nil, if_pos ⟨rfl, rfl⟩] at hf
  rw [cmdDrain_of_fetch hf (openRegion_ne_needMore _ _ _), cmdDrain_of_settled (rx := []) (.inl (by decide))]

/-- A packet without its footer: 2 bytes are taken, and the search goes on behind them. -/
theorem cmdDrain_packetBytes_of_bad_footer (p : Params) {region : List Byte} {f0 f1 : Byte} (h2 : 2 ≤ region.length)
    (h : region.length ≤ 65537) (hfoot : ¬(f0 = cmdFooter0 ∧ f1 = cmdFooter1)) :
    cmdDrain p (packetBytes region f0 f1) =
      { rx := (cmdDrain p ((packetBytes region f0 f1).drop 2)).rx,
        results := .resync :: (cmdDrain p ((packetBytes region f0 f1).drop 2)).results } := by
  have hf := fetchPacket_packetBytes p region [] f0 f1 h2 h
  rw [List.append_nil, if_neg hfoot, List.append_nil] at hf
  exact cmdDrain_of_fetch hf (by simp)

/-- The packet row is CMD_INGEST of its bytes (log entry 5). -/
theorem exec_cmdPacket (s : State) {region : List Byte} (f0 f1 : Byte) (h2 : 2 ≤ region.length)
    (h : region.length ≤ 65537) :
    exec (.cmdPacket region f0 f1) s = execCmdIngest (packetBytes region f0 f1) s :=
  whenFormed_of_formed (by simp [regionFits, h2, h]) _

section
variable {s : State} (he : s.cmdRx = []) (hw : s.params.wf)
include he hw

/-- A packet fed into an empty CMD_RX, which has room for any (R5), by what the loop gives. -/
theorem execCmdIngest_packetBytes_of_drain {region : List Byte} {f0 f1 : Byte} {d : Fetches} (h : region.length ≤ 65537)
    (hd : cmdDrain s.params (packetBytes region f0 f1) = d) :
    execCmdIngest (packetBytes region f0 f1) s = .next ((s.withCmdRx d.rx).reply (.fetches d.results)) := by
  refine execCmdIngest_of_drain ?_ (by rw [he, List.nil_append, hd])
  have := hw.2
  rw [he, packetBytes_length, List.length_nil]
  omega

/-- A packet with its footer, fed into an empty CMD_RX. -/
theorem execCmdIngest_packetBytes {region : List Byte} (h2 : 2 ≤ region.length) (h : region.length ≤ 65537) :
    execCmdIngest (packetBytes region cmdFooter0 cmdFooter1) s =
      .next (s.reply (.fetches [openRegion s.params (BitVec.ofNat 16 (region.length - 2)) region, .needMore])) := by
  rw [execCmdIngest_packetBytes_of_drain he hw h (cmdDrain_packetBytes s.params h2 h), ← he, State.withCmdRx_self]

/-- R177: a packet without its footer, fed into an empty CMD_RX, is Resync and then what its bytes after the header give. -/
theorem execCmdIngest_packetBytes_of_bad_footer {region : List Byte} {f0 f1 : Byte} (h2 : 2 ≤ region.length)
    (h : region.length ≤ 65537) (hfoot : ¬(f0 = cmdFooter0 ∧ f1 = cmdFooter1)) :
    ∃ t rs, execCmdIngest [] (s.withCmdRx ((packetBytes region f0 f1).drop 2)) = .next t ∧
      t.replies = s.replies ++ [.fetches rs] ∧
      execCmdIngest (packetBytes region f0 f1) s = .next { t with replies := s.replies ++ [.fetches (.resync :: rs)] } := by
  have hcap : ((packetBytes region f0 f1).drop 2).length + ([] : List Byte).length ≤ s.params.cmdRxCap := by
    have := hw.2
    rw [List.length_drop, packetBytes_length, List.length_nil]
    omega
  exact ⟨_, _, execCmdIngest_of_drain hcap (congrArg (cmdDrain s.params) (List.append_nil _)), rfl,
    execCmdIngest_packetBytes_of_drain he hw h (cmdDrain_packetBytes_of_bad_footer s.params h2 h hfoot)⟩

/-- The packet of an obfuscated message and two CRC bytes, fed into an empty CMD_RX: the message is judged. -/
theorem execCmdIngest_message {m : List Byte} (c0 c1 : Byte) (h2 : 2 ≤ m.length) (h : m.length < 65536) :
    execCmdIngest (packetBytes (xorApply s.params.xorKey (m ++ [c0, c1])) cmdFooter0 cmdFooter1) s =
      .next (s.reply (.fetches [judgeMessage s.params.crcEnforce m (le16 c0 c1), .needMore])) := by
  have hlen := xorApply_append_pair_length s.params.xorKey m c0 c1
  rw [execCmdIngest_packetBytes he hw (by omega) (by omega), hlen, Nat.add_sub_cancel, openRegion_xorApply _ c0 c1 h2 h]

end

/-- A message's row hands over its fields, with the view of its type. -/
theorem exec_messageInstr (s : State) (type : Word) (tail : MsgTail) :
    ∃ view, exec (messageInstr type tail) s = .next (s.reply (.message (fieldsOf type tail) view)) := by
  rw [← messageFields_messageBytes]
  unfold messageInstr
  split_ifs with hinit hinfo hevent hack
  · exact hinit ▸ ⟨_, rfl⟩
  · exact hinfo ▸ ⟨_, rfl⟩
  · exact hevent ▸ ⟨_, rfl⟩
  · exact hack ▸ ⟨_, rfl⟩
  · exact ⟨_, rfl⟩

/-- R67: the length of a message that fits its packet. -/
theorem messageBytes_length_bounds (type : Word) {tail : MsgTail} (h : tailFits tail = true) :
    2 ≤ (messageBytes type tail).length ∧ (messageBytes type tail).length < 65536 := by
  rw [Laws.messageBytes_length]
  cases tail with
  | short stray => cases stray <;> simp [Laws.tailLength]
  | full plen body =>
    have hbody : body.length ≤ 65531 := of_decide_eq_true h
    rw [Laws.tailLength]
    omega

/-! CMD_INGEST as repeated attempts (R186). -/

/-- As many attempts as the loop makes, one after another, give the loop's results and leave its buffer. -/
theorem runOps_pktFetch_eq_cmdDrain (p : Params) (rx : List Byte) {s : State} (hp : s.params = p) (hrx : s.cmdRx = rx) :
    ∃ rs t, runOps (List.replicate (rs.length + 1) .pktFetch) s = .next t ∧ (∀ r ∈ rs, r ≠ .needMore) ∧
      t.replies = s.replies ++ (rs.map Reply.fetch ++ [.fetch .needMore]) ∧
      cmdDrain p rx = { rx := t.cmdRx, results := rs ++ [.needMore] } := by
  induction rx using cmdDrain_induction p generalizing s with
  | stop rx h =>
    have hx := exec_pktFetch_of_fetch (s := s) (by rw [hp, hrx])
    exact ⟨[], _, runOps_cons_of_next [] hx, by simp, by simp [h], cmdDrain_of_needMore h⟩
  | go rx h ih =>
    have hx := exec_pktFetch_of_fetch (s := s) (by rw [hp, hrx])
    obtain ⟨rs, t, hrun, hne, hreplies, hdrain⟩ :=
      ih (s := (s.withCmdRx (fetchPacket p rx).rx).reply (.fetch (fetchPacket p rx).result)) hp rfl
    refine ⟨(fetchPacket p rx).result :: rs, t, (runOps_cons_of_next _ hx).trans hrun, ?_, ?_, ?_⟩
    · exact List.forall_mem_cons.mpr ⟨h, hne⟩
    · simp [hreplies]
    · rw [cmdDrain_of_fetch rfl h, hdrain]
      rfl

/-! A stream fed in pieces (R188). -/

/-- No command header begins in `g` when the bytes `z` and any more stand behind it. -/
def CmdGarbage (g z : List Byte) : Prop := ∀ y, ∀ j < g.length, ¬PairAt cmdHeader0 cmdHeader1 (g ++ z ++ y) j

theorem CmdGarbage.nil (z : List Byte) : CmdGarbage [] z := fun _ _ hj => absurd hj (Nat.not_lt_zero _)

theorem CmdGarbage.append {g z : List Byte} (h : CmdGarbage g z) (y : List Byte) : CmdGarbage g (z ++ y) := by
  intro y' j hj
  rw [List.append_assoc, List.append_assoc, ← List.append_assoc g]
  exact h (y ++ y') j hj

/-- Where a byte stands behind `g`, no later bytes can make a header that begins in it. -/
theorem cmdGarbage_of_ne_nil {g z : List Byte} (hz : z ≠ [])
    (h : ∀ j < g.length, ¬PairAt cmdHeader0 cmdHeader1 (g ++ z) j) : CmdGarbage g z := by
  intro y j hj hpair
  have hlen : j + 1 < (g ++ z).length := by
    have := List.length_pos_iff.mpr hz
    rw [List.length_append]
    omega
  exact h j hj ((pairAt_append_left hlen).mp hpair)

/-- What the search finds it finds in any longer sequence. -/
theorem find2_append_of_some {b0 b1 : Byte} {s : List Byte} {k : Nat} (h : find2 b0 b1 s = some k) (t : List Byte) :
    find2 b0 b1 (s ++ t) = some k := by
  obtain ⟨hpair, hmin⟩ := find2_eq_some_iff_firstPair.mp h
  have hk := (pairAt_iff.mp hpair).1
  exact find2_eq_some_iff_firstPair.mpr ⟨(pairAt_append_left hk).mpr hpair,
    fun j hj hj' => hmin j hj ((pairAt_append_left (by omega)).mp hj')⟩

theorem find2_cmdGarbage {g z : List Byte} (h : CmdGarbage g z) :
    find2 cmdHeader0 cmdHeader1 (g ++ z) = (find2 cmdHeader0 cmdHeader1 z).map (· + g.length) := by
  have hpair : ∀ j < g.length, ¬PairAt cmdHeader0 cmdHeader1 (g ++ z) j := by simpa using h []
  by_cases hz : z = []
  · subst hz
    refine find2_eq_none_of_no_pair fun j hj => hpair j ?_ hj
    have := (pairAt_iff.mp hj).1
    rw [List.append_nil] at this
    omega
  · exact find2_append_of_no_pair hz hpair

/-- R174: without a header, what is not kept is garbage. -/
theorem cmdGarbage_of_no_header {rx : List Byte} (h : find2 cmdHeader0 cmdHeader1 rx = none) :
    ∃ g, rx = g ++ partialHeader rx ∧ CmdGarbage g (partialHeader rx) := by
  have hnone (j : Nat) : ¬PairAt cmdHeader0 cmdHeader1 rx j := fun hj =>
    find2_none h j (pairAt_iff.mp hj).1 (pairAt_iff.mp hj).2
  by_cases hlast : rx.getLast? = some cmdHeader0
  · have hrx : rx = rx.take (rx.length - 1) ++ partialHeader rx := by
      rw [partialHeader, if_pos hlast, keepLast, List.take_append_drop]
    refine ⟨_, hrx, cmdGarbage_of_ne_nil ?_ fun j _ => ?_⟩
    · have := List.length_pos_iff.mpr (List.ne_nil_of_mem (List.mem_of_getLast? hlast))
      rw [partialHeader, if_pos hlast]
      exact List.length_pos_iff.mp (by rw [keepLast_length]; omega)
    · rw [← hrx]
      exact hnone j
  · have hkept : partialHeader rx = [] := if_neg hlast
    rw [hkept]
    refine ⟨rx, (List.append_nil rx).symm, fun y j hj hpair => ?_⟩
    rw [List.append_nil] at hpair
    by_cases hend : j + 1 < rx.length
    · exact hnone j ((pairAt_append_left hend).mp hpair)
    · rw [List.getLast?_eq_getElem?, show rx.length - 1 = j by omega, ← List.getElem?_append_left hj (l₂ := y)] at hlast
      exact hlast hpair.1

/-- R174, R175: what stands before the first header is garbage. -/
theorem cmdGarbage_of_header {rx : List Byte} {k : Nat} (h : find2 cmdHeader0 cmdHeader1 rx = some k) :
    CmdGarbage (rx.take k) (rx.drop k) := by
  obtain ⟨hpair, hmin⟩ := find2_eq_some_iff_firstPair.mp h
  have hk := (pairAt_iff.mp hpair).1
  refine cmdGarbage_of_ne_nil (List.length_pos_iff.mp (by rw [List.length_drop]; omega)) fun j hj => ?_
  rw [List.take_append_drop]
  exact hmin j (hj.trans_le (List.length_take_le _ _))

/-- An attempt that needs more has dropped garbage only. -/
theorem cmdGarbage_of_needMore {p : Params} {rx : List Byte} (h : (fetchPacket p rx).result = .needMore) :
    ∃ g, rx = g ++ (fetchPacket p rx).rx ∧ CmdGarbage g (fetchPacket p rx).rx := by
  obtain ⟨-, hf⟩ | ⟨-, hn, hf⟩ | ⟨k, -, hk, hf⟩ := fetchPacket_cases p rx
  · rw [hf]
    exact ⟨[], rfl, .nil rx⟩
  · rw [hf]
    exact cmdGarbage_of_no_header hn
  · rw [hf] at h ⊢
    obtain ⟨he, -⟩ | ⟨-, -, he⟩ | ⟨-, -, -, he⟩ := pktExtract_cases p (rx.drop k) <;> rw [he] at h ⊢
    · exact ⟨rx.take k, (List.take_append_drop _ _).symm, cmdGarbage_of_header hk⟩
    · cases h
    · exact absurd h (openRegion_ne_needMore _ _ _)

/-- Garbage in front of a buffer changes nothing of an attempt but, where it needs more, what it leaves. -/
theorem fetchPacket_cmdGarbage (p : Params) {g z : List Byte} (h : CmdGarbage g z) :
    fetchPacket p (g ++ z) = fetchPacket p z ∨
      (fetchPacket p (g ++ z)).result = .needMore ∧ (fetchPacket p z).result = .needMore := by
  have hfind := find2_cmdGarbage h
  by_cases hshort : (g ++ z).length < 8
  · have hz : z.length < 8 := by rw [List.length_append] at hshort; omega
    exact .inr ⟨by rw [fetchPacket_of_short p hshort], by rw [fetchPacket_of_short p hz]⟩
  cases hf : find2 cmdHeader0 cmdHeader1 z with
  | none =>
    exact .inr ⟨fetchPacket_needMore_of_no_header p (by rw [hfind, hf]; rfl), fetchPacket_needMore_of_no_header p hf⟩
  | some k =>
    have hdrop : (g ++ z).drop (k + g.length) = z.drop k := by
      rw [Nat.add_comm, ← List.drop_drop, List.drop_left' rfl]
    have hx : fetchPacket p (g ++ z) = pktExtract p (z.drop k) := by
      rw [fetchPacket_of_header p (by omega) (by rw [hfind, hf]; rfl), hdrop]
    by_cases hl : z.length < 8
    · refine .inr ⟨?_, by rw [fetchPacket_of_short p hl]⟩
      rw [hx, pktExtract_of_short p (.inl (by rw [List.length_drop]; omega))]
    · exact .inl (hx.trans (fetchPacket_of_header p (by omega) hf).symm)

theorem cmdDrain_cmdGarbage (p : Params) {g z : List Byte} (h : CmdGarbage g z) :
    (cmdDrain p (g ++ z)).results = (cmdDrain p z).results := by
  obtain he | ⟨hgz, hz⟩ := fetchPacket_cmdGarbage p h
  · rw [cmdDrain_eq, he, ← cmdDrain_eq]
  · rw [cmdDrain_of_needMore hgz, cmdDrain_of_needMore hz]

/-- A whole packet is judged the same whatever follows it. -/
theorem pktExtract_append {p : Params} {rx : List Byte} (h : (pktExtract p rx).result ≠ .needMore) (y : List Byte) :
    pktExtract p (rx ++ y) = { result := (pktExtract p rx).result, rx := (pktExtract p rx).rx ++ y } := by
  have hl : 8 + (le16At rx 2).toNat ≤ rx.length := by
    by_contra hshort
    exact h (congrArg Fetch.result (pktExtract_of_short p (.inr (by omega))))
  have hsize : le16At (rx ++ y) 2 = le16At rx 2 := by
    rw [le16At, byteOf_append_left _ _ _ (by omega), byteOf_append_left _ _ _ (by omega), le16At]
  have hly : 8 + (le16At (rx ++ y) 2).toNat ≤ (rx ++ y).length := by rw [hsize, List.length_append]; omega
  have hfooty : PairAt cmdFooter0 cmdFooter1 (rx ++ y) (6 + (le16At (rx ++ y) 2).toNat) ↔
      PairAt cmdFooter0 cmdFooter1 rx (6 + (le16At rx 2).toNat) := by
    rw [hsize, pairAt_append_left (by omega)]
  by_cases hfoot : PairAt cmdFooter0 cmdFooter1 rx (6 + (le16At rx 2).toNat)
  · rw [pktExtract_of_footer p hl hfoot, pktExtract_of_footer p hly (hfooty.mpr hfoot), hsize,
      slice_append_left _ _ _ _ (by omega), List.drop_append_of_le_length hl]
  · rw [pktExtract_of_bad_footer p hl hfoot, pktExtract_of_bad_footer p hly (mt hfooty.mp hfoot),
      List.drop_append_of_le_length (by omega)]

/-- A result other than NeedMore is the same from any longer buffer. -/
theorem fetchPacket_append {p : Params} {rx : List Byte} (h : (fetchPacket p rx).result ≠ .needMore) (y : List Byte) :
    fetchPacket p (rx ++ y) = { result := (fetchPacket p rx).result, rx := (fetchPacket p rx).rx ++ y } := by
  obtain ⟨-, hf⟩ | ⟨-, -, hf⟩ | ⟨k, h8, hk, hf⟩ := fetchPacket_cases p rx
  · exact absurd (congrArg Fetch.result hf) h
  · exact absurd (congrArg Fetch.result hf) h
  · have hlen := (find2_some hk).1
    rw [hf] at h ⊢
    rw [fetchPacket_of_header p (by rw [List.length_append]; omega) (find2_append_of_some hk y),
      List.drop_append_of_le_length (by omega), pktExtract_append h]

/-- The key to R188: draining a buffer and then what it leaves with more bytes behind it gives the results of draining all the
bytes at once. By induction over the attempts on the first buffer; where the loop ends, it has dropped garbage only. -/
theorem cmdDrain_append (p : Params) (rx y : List Byte) :
    (cmdDrain p (rx ++ y)).results =
      resultsOf [.fetches (cmdDrain p rx).results] ++ (cmdDrain p ((cmdDrain p rx).rx ++ y)).results := by
  induction rx using cmdDrain_induction p with
  | stop rx h =>
    obtain ⟨g, hrx, hg⟩ := cmdGarbage_of_needMore h
    rw [cmdDrain_of_needMore h]
    conv_lhs => rw [hrx, List.append_assoc, cmdDrain_cmdGarbage p (hg.append y)]
    simp [resultsOf]
  | go rx h ih =>
    rw [cmdDrain_of_fetch (fetchPacket_append h y) h, cmdDrain_of_fetch rfl h, ih]
    simp [resultsOf, h]

theorem resultsOf_append (rs qs : List Reply) : resultsOf (rs ++ qs) = resultsOf rs ++ resultsOf qs := by
  induction rs with
  | nil => rfl
  | cons r rs ih => cases r <;> simp [resultsOf, ih]

/-- `t` is a state in which the command bytes `data`, fed from `s` on, were answered with `rs`: with any later bytes it gives
what `s` gives with `data` and those bytes. -/
structure CmdFed (s : State) (data : List Byte) (rs : List Reply) (t : State) : Prop where
  params : t.params = s.params
  replies : t.replies = s.replies ++ rs
  length : t.cmdRx.length ≤ s.cmdRx.length + data.length
  agree : ∀ later, (cmdDrain s.params (s.cmdRx ++ data ++ later)).results =
    resultsOf rs ++ (cmdDrain s.params (t.cmdRx ++ later)).results

theorem CmdFed.refl (s : State) : CmdFed s [] [] s where
  params := rfl
  replies := (List.append_nil _).symm
  length := le_rfl
  agree later := by rw [List.append_nil, resultsOf, List.nil_append]

theorem CmdFed.trans {s t u : State} {data more : List Byte} {rs qs : List Reply} (h : CmdFed s data rs t)
    (h' : CmdFed t more qs u) : CmdFed s (data ++ more) (rs ++ qs) u where
  params := h'.params.trans h.params
  replies := by rw [h'.replies, h.replies, List.append_assoc]
  length := by
    have := h.length
    have := h'.length
    rw [List.length_append]
    omega
  agree later := by
    have hmore := h'.agree later
    rw [h.params, List.append_assoc] at hmore
    rw [← List.append_assoc s.cmdRx, List.append_assoc, h.agree, hmore, resultsOf_append, List.append_assoc]

/-- What a CMD_INGEST within the cap shows the host is what the loop gives. -/
theorem execCmdIngest_shows {s : State} {data : List Byte} (h : s.cmdRx.length + data.length ≤ s.params.cmdRxCap) :
    ∃ t, execCmdIngest data s = .next t ∧
      resultsOf (repliesSince s t) = resultsOf [.fetches (cmdDrain s.params (s.cmdRx ++ data)).results] :=
  ⟨_, execCmdIngest_of_fits h, congrArg resultsOf (repliesSince_of_append rfl)⟩

/-- A CMD_INGEST within the cap feeds its bytes and leaves a settled buffer. -/
theorem execCmdIngest_fed {s : State} {data : List Byte} (h : s.cmdRx.length + data.length ≤ s.params.cmdRxCap) :
    ∃ rs t, execCmdIngest data s = .next t ∧ CmdFed s data rs t ∧ CmdSettled t.cmdRx := by
  refine ⟨_, _, execCmdIngest_of_fits h, ⟨rfl, rfl, ?_, cmdDrain_append s.params (s.cmdRx ++ data)⟩, cmdDrain_settled _ _⟩
  rw [← List.length_append]
  exact cmdDrain_length _ _

/-- However a stream within the cap is cut, its pieces feed it; after at least one piece the buffer is settled. -/
theorem runOps_map_cmdIngest_fed (pieces : List (List Byte)) {s : State}
    (h : s.cmdRx.length + pieces.flatten.length ≤ s.params.cmdRxCap) :
    ∃ rs t, runOps (pieces.map Instr.cmdIngest) s = .next t ∧ CmdFed s pieces.flatten rs t ∧
      (pieces ≠ [] ∨ CmdSettled s.cmdRx → CmdSettled t.cmdRx) := by
  induction pieces generalizing s with
  | nil => exact ⟨[], s, rfl, .refl s, fun hs => hs.resolve_left (absurd rfl)⟩
  | cons d pieces ih =>
    rw [List.flatten_cons, List.length_append] at h
    obtain ⟨rs, t, ht, hfed, hsettled⟩ := execCmdIngest_fed (s := s) (data := d) (by omega)
    obtain ⟨qs, u, hu, hfed', hsettled'⟩ := ih (s := t) (by have := hfed.length; rw [hfed.params]; omega)
    exact ⟨rs ++ qs, u, (runOps_cons_of_next (i := .cmdIngest d) _ ht).trans hu, hfed.trans hfed',
      fun _ => hsettled' (.inr hsettled)⟩

/-- Two ways of feeding the same bytes that both leave settled buffers have shown the same, and show the same ever after. -/
theorem CmdFed.same {s t u : State} {data : List Byte} {rs qs : List Reply} (ht : CmdFed s data rs t)
    (hu : CmdFed s data qs u) (hts : CmdSettled t.cmdRx) (hus : CmdSettled u.cmdRx) :
    resultsOf rs = resultsOf qs ∧ ∀ later,
      (cmdDrain s.params (t.cmdRx ++ later)).results = (cmdDrain s.params (u.cmdRx ++ later)).results := by
  have hagree (later : List Byte) := (ht.agree later).symm.trans (hu.agree later)
  have hnow := hagree []
  rw [List.append_nil, List.append_nil, cmdDrain_of_settled hts, cmdDrain_of_settled hus] at hnow
  have hresults := List.append_cancel_right hnow
  exact ⟨hresults, fun later => List.append_cancel_left (hresults ▸ hagree later)⟩

end Sys2Proof.Machine

namespace Sys2Proof.Proofs

open Machine

/-- Settles O54: the pieces and the whole feed the same bytes and leave settled buffers, so no later bytes tell them
apart. -/
theorem commandParserDoesNotSeeTheCuts : Obligations.CommandParserDoesNotSeeTheCuts := by
  intro s pieces hpieces hcap
  obtain ⟨rs, t, hrun, ht, hts⟩ := runOps_map_cmdIngest_fed pieces hcap
  obtain ⟨qs, u, hexec, hu, hus⟩ := execCmdIngest_fed hcap
  obtain ⟨hresults, hlater⟩ := ht.same hu (hts hpieces) hus
  refine ⟨t, u, hrun, hexec, ?_, fun later htl hul => ?_⟩
  · rw [repliesSince_of_append ht.replies, repliesSince_of_append hu.replies, hresults]
  · obtain ⟨t', ht', hte⟩ := execCmdIngest_shows htl
    obtain ⟨u', hu', hue⟩ := execCmdIngest_shows hul
    exact ⟨t', u', ht', hu', by rw [hte, hue, ht.params, hu.params, hlater later]⟩

/-- Settles O53: the built packet's region is de-obfuscated to the padded message and its own CRC. -/
theorem buildThenIngestRoundTrips : Obligations.BuildThenIngestRoundTrips := by
  intro s type q he hw hq
  have hlen := paddedMessage_length type q
  have hx := execCmdIngest_message he hw (m := paddedMessage type q) (lowByte (crc16 (paddedMessage type q)))
    (highByte (crc16 (paddedMessage type q))) (by omega) (by omega)
  have hpayload : (q ++ padOf q).take (BitVec.ofNat 16 q.length).toNat = q := by
    rw [BitVec.toNat_ofNat, Nat.mod_eq_of_lt (by omega), List.take_left' rfl]
  have hfields : messageFields (paddedMessage type q) =
      { type := type, plen := some (BitVec.ofNat 16 q.length), body := q ++ padOf q, payload := q } := by
    rw [paddedMessage_eq, messageFields_messageBytes, fieldsOf, hpayload]
  rw [le16_lowByte_highByte, judgeMessage_of_crc, hfields] at hx
  exact ⟨_, _, exec_pktBuild_of_fits s type hq, hx⟩

/-- Settles O46: the padded message by its bytes, and the packet of it. -/
theorem buildLaysOutThePacket : Obligations.BuildLaysOutThePacket := by
  intro s type p hp m
  have hm : paddedMessage type p = m := by
    rw [paddedMessage_eq, messageBytes, tailBytes, le16Bytes_eq_littleBytes, le16Bytes_ofNat (by omega)]
    simp only [m, padOf, List.append_assoc]
  have hlen := paddedMessage_length type p
  rw [exec_pktBuild_of_fits s type hp, buildPacket_eq _ (by omega), hm]

/-- Settles O48: each of the three buffers makes the attempt need more. -/
theorem fetchNeedsMoreWithoutAWholePacket : Obligations.FetchNeedsMoreWithoutAWholePacket := by
  intro s
  refine ⟨fun hl => ?_, fun hl hpair => ?_, fun k hl hpair hshort => ?_⟩
  · exact exec_pktFetch_of_fetch (fetchPacket_of_short s.params hl)
  · rw [exec_pktFetch_of_fetch (fetchPacket_of_no_header s.params hl (find2_eq_none_of_no_pair hpair)), partialHeader_eq]
    rfl
  · rw [← List.length_drop, ← le16At_drop] at hshort
    refine exec_pktFetch_of_fetch (f := { result := .needMore, rx := s.cmdRx.drop k }) ?_
    rw [fetchPacket_of_header _ hl (find2_eq_some_iff_firstPair.mpr hpair), pktExtract_of_short _ hshort]

/-- Settles O49: the attempt on the buffer from its header on. -/
theorem fetchResyncsOnABadFooter : Obligations.FetchResyncsOnABadFooter := by
  rintro s k n hpair rfl hl hfoot
  refine exec_pktFetch_of_fetch (f := { result := .resync, rx := s.cmdRx.drop (k + 2) }) ?_
  rw [← le16At_drop] at hl hfoot
  rw [← List.length_drop] at hl
  rw [Nat.add_assoc, ← pairAt_drop] at hfoot
  rw [fetchPacket_of_header _ (by rw [List.length_drop] at hl; omega) (find2_eq_some_iff_firstPair.mpr hpair),
    pktExtract_of_bad_footer _ hl hfoot, List.drop_drop]

/-- Settles O50: the attempt on the buffer from its header on, and the region it opens. -/
theorem fetchTakesAWholePacket : Obligations.FetchTakesAWholePacket := by
  rintro s k n hpair rfl hl hfoot region
  refine exec_pktFetch_of_fetch (f := { result := packetResult _ _ _, rx := _ }) ?_
  have hregion : slice (s.cmdRx.drop k) 4 (6 + (le16At s.cmdRx (k + 2)).toNat) =
      (s.cmdRx.drop (k + 4)).take ((le16At s.cmdRx (k + 2)).toNat + 2) := by
    rw [slice, List.drop_drop]
    congr 1
    omega
  have hlen : ((s.cmdRx.drop (k + 4)).take ((le16At s.cmdRx (k + 2)).toNat + 2)).length =
      (le16At s.cmdRx (k + 2)).toNat + 2 := by
    rw [List.length_take, List.length_drop]
    omega
  rw [fetchPacket_of_header _ (by omega) (find2_eq_some_iff_firstPair.mpr hpair), pktExtract_of_footer, le16At_drop,
    hregion, openRegion_eq_packetResult _ hlen, List.drop_drop, Nat.add_assoc]
  · rwa [le16At_drop, List.length_drop]
  · rwa [le16At_drop, pairAt_drop, ← Nat.add_assoc]

/-- Settles O51: as many attempts as the loop makes. -/
theorem cmdIngestFetchesUntilNeedMore : Obligations.CmdIngestFetchesUntilNeedMore := by
  intro s d
  refine ⟨execCmdIngest_of_over, fun hcap => ?_⟩
  obtain ⟨rs, t, hrun, hne, hreplies, hdrain⟩ :=
    runOps_pktFetch_eq_cmdDrain s.params (s.cmdRx ++ d) (s := s.withCmdRx (s.cmdRx ++ d)) rfl rfl
  exact ⟨rs.length, t, rs, hrun, rfl, hne, hreplies, execCmdIngest_of_drain hcap hdrain⟩

/-- Settles O55: the row is CMD_INGEST of the packet's bytes, with its footer or without. -/
theorem packetRowIsTheIngestOfThePacket : Obligations.PacketRowIsTheIngestOfThePacket := by
  intro s region f0 f1 h2 hl
  have hrow := exec_cmdPacket s f0 f1 h2 hl
  refine ⟨fun hover => ?_, fun he hw hf0 hf1 => ?_, fun he hw hfoot => ?_⟩
  · rw [hrow]
    exact execCmdIngest_of_over (by rwa [packetBytes_length, Nat.add_comm 6])
  · subst hf0 hf1
    have hn : (BitVec.ofNat 16 (region.length - 2)).toNat = region.length - 2 := by
      rw [BitVec.toNat_ofNat]
      omega
    have hx := execCmdIngest_packetBytes he hw h2 hl
    rw [openRegion_eq_packetResult _ (by omega), hn] at hx
    exact hrow.trans hx
  · have hrest : (packetBytes region f0 f1).drop 2 = littleBytes (region.length - 2) ++ region ++ [f0, f1] := by
      rw [← le16Bytes_ofNat (by omega)]
      rfl
    rw [hrow, ← hrest]
    exact execCmdIngest_packetBytes_of_bad_footer he hw h2 hl hfoot

/-- Settles O59: the region of the row's packet is de-obfuscated to the message and the two CRC bytes. -/
theorem fetchedPacketCarriesItsMessageFields : Obligations.FetchedPacketCarriesItsMessageFields := by
  intro s type tail c0 c1 hfits he hw
  obtain ⟨view, hview⟩ := exec_messageInstr s type tail
  obtain ⟨h2, hl⟩ := messageBytes_length_bounds type hfits
  have hx := execCmdIngest_message he hw c0 c1 h2 hl
  have hlen := xorApply_append_pair_length s.params.xorKey (messageBytes type tail) c0 c1
  rw [xorApply_eq_xorByIndex] at hlen
  rw [xorApply_eq_xorByIndex, judgeMessage_eq, messageFields_messageBytes] at hx
  exact ⟨_, view, _, hview, (exec_cmdPacket s _ _ (by omega) (by omega)).trans hx, rfl⟩

/-- Settles O47: the length check comes first. -/
theorem buildRefusesALongPayload : Obligations.BuildRefusesALongPayload :=
  fun s type _ h => exec_pktBuild_of_long s type h

end Sys2Proof.Proofs
end

section
/-! Proofs for the outcome statements (60_exceptions.md R200 to R212): an unlisted selector, that every row completes, what a
refusal changes, the two parsers fed in either order, and the codes. -/

namespace Sys2Proof

open Machine

/-! An unlisted selector (R207). -/

/-- R90: `listedSelector` on bytes. -/
theorem listedSelector_toNat_of_not_mem {sel : Byte}
    (h : sel ∉ [0x01#8, 0x02#8, 0x03#8, 0x04#8, 0x05#8, 0x10#8, 0x11#8, 0x12#8, 0x20#8, 0x21#8, 0x22#8, 0x30#8]) :
    listedSelector sel.toNat = false := by
  rw [← List.mem_map_of_injective (fun _ _ => BitVec.eq_of_toNat_eq), ← List.contains_iff_mem, Bool.not_eq_true] at h
  exact h

theorem decodeCall_of_unlisted {sel : Byte} (bs : List Byte) (h : listedSelector sel.toNat = false) :
    decodeCall (sel :: bs) = .error (.badSelector sel) := by
  simp only [decodeCall]
  split
  -- every selector with an arm of its own is listed
  case h_13 => rfl
  all_goals
    rename_i hsel
    rw [hsel] at h
    cases h

end Sys2Proof

namespace Sys2Proof.Machine

theorem fetch_eq_unlisted_of_decode {r : Request} {sel : Byte} (others : List Request)
    (h : decode r.format r.bytes = .error (.badSelector sel)) :
    fetch (r :: others) = .unlisted sel (requeue r.format (r.bytes.drop 1) others) := by
  have hne : r.bytes ≠ [] := by
    intro hnil
    rw [hnil, decode_nil] at h
    cases h
  simp only [fetch, if_neg hne, h]

theorem step_eq_reply_of_fetch_unlisted {s : State} {sel : Byte} {q : List Request} (h : fetch s.inbox = .unlisted sel q) :
    step s = .next ((s.withInbox q).reply (.badSelector sel)) := by
  rw [step, h]
  exact State.refuse_eq _ _

/-! Every row completes (R200). -/

/-- R77, R89: what runs as no operation, a message or keepalive, completes. -/
theorem exec_completes_of_operationOf_none {i : Instr} (s : State) (h : operationOf i = none) : ∃ t, exec i s = .next t := by
  cases i <;> cases h
  all_goals exact ⟨_, rfl⟩

/-! What a refusal changes (R204). -/

/-- One new reply is all that changed, or it is a reply of an operation that was carried out: `Ok` without a result,
events or fetch results. -/
theorem Effect.eq_reply_or_carried_out {i : Instr} {s t : State} {r : Reply} (h : Effect s i t)
    (hr : t.replies = s.replies ++ [r]) :
    t = s.reply r ∨ r = .done ∨ (∃ es, r = .events es) ∨ (∃ f, r = .fetch f) ∨ ∃ fs, r = .fetches fs := by
  have hlast (r' : Reply) (heq : s.replies ++ [r'] = s.replies ++ [r]) : r = r' :=
    (List.singleton_inj.mp (List.append_cancel_left heq)).symm
  cases h with
  | unchanged => exact absurd (List.self_eq_append_right.mp hr) (List.cons_ne_nil r [])
  | answered r' => exact .inl (by rw [hlast r' hr])
  | crcWritten | blockReset => exact .inr (.inl (hlast _ hr))
  | displayIngested => exact .inr (.inr (.inl ⟨_, hlast _ hr⟩))
  | fetched => exact .inr (.inr (.inr (.inl ⟨_, hlast _ hr⟩)))
  | commandIngested => exact .inr (.inr (.inr (.inr ⟨_, hlast _ hr⟩)))

/-! An ingest reads the parameters and its own parser's state only (R25, R212), so from every state that has these in common
it writes the same and answers the same. -/

theorem execDispIngest_uniform (data : List Byte) (s : State) :
    ∃ q m r, ∀ t : State, t.params = s.params → t.dispRx = s.dispRx → t.bitmap = s.bitmap →
      execDispIngest data t = .next (((t.withDispRx q).withBitmap m).reply r) := by
  by_cases hcap : s.dispRx.length + data.length ≤ s.params.dispRxCap
  · refine ⟨(dispDrain (s.dispRx ++ data) s.bitmap).rx, (dispDrain (s.dispRx ++ data) s.bitmap).bitmap,
      .events (dispDrain (s.dispRx ++ data) s.bitmap).events, fun t hp hq hm => ?_⟩
    rw [← hp, ← hq] at hcap
    rw [execDispIngest_of_fits hcap, hq, hm]
  · refine ⟨s.dispRx, s.bitmap, .capacityExceeded, fun t hp hq hm => ?_⟩
    rw [← hp, ← hq, Nat.not_le] at hcap
    rw [execDispIngest_of_over hcap, ← hq, ← hm]
    rfl

theorem execCmdIngest_uniform (data : List Byte) (s : State) :
    ∃ q r, ∀ t : State, t.params = s.params → t.cmdRx = s.cmdRx →
      execCmdIngest data t = .next ((t.withCmdRx q).reply r) := by
  by_cases hcap : s.cmdRx.length + data.length ≤ s.params.cmdRxCap
  · refine ⟨(cmdDrain s.params (s.cmdRx ++ data)).rx, .fetches (cmdDrain s.params (s.cmdRx ++ data)).results,
      fun t hp hq => ?_⟩
    rw [← hp, ← hq] at hcap
    rw [execCmdIngest_of_fits hcap, hp, hq]
  · refine ⟨s.cmdRx, .capacityExceeded, fun t hp hq => ?_⟩
    rw [← hp, ← hq, Nat.not_le] at hcap
    rw [execCmdIngest_of_over hcap, ← hq]
    rfl

theorem runOps_pair {i j : Instr} {s t u : State} (hi : exec i s = .next t) (hj : exec j t = .next u) :
    runOps [i, j] s = .next u :=
  (runOps_cons_of_next [j] hi).trans (runOps_cons_of_next [] hj)

end Sys2Proof.Machine

namespace Sys2Proof.Proofs

open Machine

/-- Settles O3: no arm of the call decoder is for an unlisted selector, so the fetch finds it unlisted. -/
theorem unlistedSelectorIsRefused : Obligations.UnlistedSelectorIsRefused := by
  intro s sel bs others hsel hinbox
  have hdecode : decode .call (sel :: bs) = .error (.badSelector sel) :=
    decodeCall_of_unlisted bs (listedSelector_toNat_of_not_mem hsel)
  have hfetch : fetch s.inbox = .unlisted sel (requeue .call bs others) := by
    rw [hinbox]
    exact fetch_eq_unlisted_of_decode (r := { format := .call, bytes := sel :: bs }) others hdecode
  exact step_eq_reply_of_fetch_unlisted hfetch

/-- Settles O12: a row completes as the operation that it runs as, and a message or keepalive by itself. -/
theorem everyWellFormedInstructionCompletes : Obligations.EveryWellFormedInstructionCompletes := by
  intro i s hw
  cases hop : operationOf i with
  | none => exact exec_completes_of_operationOf_none s hop
  | some op =>
    obtain ⟨t, ht, -⟩ := exec_call_replies s (operationOf_format hop)
    exact ⟨t, (exec_eq_exec_operationOf s hw hop).trans ht⟩

/-- Settles O16: no operation that was carried out answers with one of the three refusals. -/
theorem refusalLeavesTheBlockAsItWas : Obligations.RefusalLeavesTheBlockAsItWas := by
  intro i s t r hx hr hrefusal
  refine ((exec_effect hx).eq_reply_or_carried_out hr).resolve_right ?_
  obtain rfl | ⟨p, rfl⟩ | ⟨x, y, rfl⟩ := hrefusal <;> simp

/-- Settles O18: each ingest writes and answers the same whether the other one ran before it or not. -/
theorem feedingOrderChangesOnlyTheReplyOrder : Obligations.FeedingOrderChangesOnlyTheReplyOrder := by
  intro s a b
  obtain ⟨q1, m, r1, hdisp⟩ := execDispIngest_uniform a s
  obtain ⟨q2, r2, hcmd⟩ := execCmdIngest_uniform b s
  have hdc := runOps_pair (i := .dispIngest a) (j := .cmdIngest b) (hdisp s rfl rfl rfl) (hcmd _ rfl rfl)
  have hcd := runOps_pair (i := .cmdIngest b) (j := .dispIngest a) (hcmd s rfl rfl) (hdisp _ rfl rfl rfl)
  refine ⟨_, _, r1, r2, hdc, hcd, List.append_assoc _ _ _, ?_⟩
  rw [State.reply, State.withBitmap_replies, State.withDispRx_replies, State.reply_replies, List.append_assoc]
  rfl

/-- Settles O20: each clause is one equation of the code tables. -/
theorem outcomesCarryTheirCodes : Obligations.OutcomesCarryTheirCodes :=
  ⟨fun _ => rfl, rfl, rfl, fun _ => rfl, fun _ _ => rfl, fun _ => rfl, fun _ => rfl, rfl, fun _ _ => rfl, fun _ => rfl, rfl,
    fun _ => rfl, fun _ => rfl, fun _ => rfl, fun _ => rfl, fun _ => rfl, fun _ _ => rfl, fun _ => rfl, fun _ => rfl,
    fun _ _ => rfl⟩

end Sys2Proof.Proofs
end

section
/-! Proofs for the reset statements (70_reset_and_hazards.md R220 to R224): that the reset state meets the invariant, and what
RESET writes, leaves alone and shows to the reads after it. -/

namespace Sys2Proof.Machine

/-- R220, R224: empty buffers are settled and within every capacity, and the empty memory is canonical. -/
theorem State.resetWith_inv {p : Params} (h : p.wf) : (State.resetWith p).Inv :=
  ⟨rfl, Nat.zero_le _, Nat.zero_le _, .inl (Nat.zero_lt_succ 4), h⟩

/-- R220: a copy of BITMAP in its reset content. -/
theorem Memory.copy_nil : Memory.copy [] = List.replicate 1024 0x00#8 := by
  have hread : Memory.copy [] = (List.range' 0 1024).map (Memory.byteAt []) := Memory.read_eq rfl 0 1024
  have hzero : Memory.byteAt [] = fun _ => 0x00#8 := funext Memory.byteAt_nil
  rw [hread, hzero, List.map_const', List.length_range']

/-- R220: the four elements as RESET sets them, and every other field as it was. -/
def State.cleared (s : State) : State := (((s.withCrcReg 0x0000#16).withBitmap []).withDispRx []).withCmdRx []

@[simp] theorem State.cleared_crcReg (s : State) : s.cleared.crcReg = 0x0000#16 := rfl
@[simp] theorem State.cleared_bitmap (s : State) : s.cleared.bitmap = [] := rfl
@[simp] theorem State.cleared_dispRx (s : State) : s.cleared.dispRx = [] := rfl
@[simp] theorem State.cleared_cmdRx (s : State) : s.cleared.cmdRx = [] := rfl
@[simp] theorem State.cleared_params (s : State) : s.cleared.params = s.params := rfl
@[simp] theorem State.cleared_inbox (s : State) : s.cleared.inbox = s.inbox := rfl
@[simp] theorem State.cleared_replies (s : State) : s.cleared.replies = s.replies := rfl
@[simp] theorem State.cleared_cleared (s : State) : s.cleared.cleared = s.cleared := rfl
@[simp] theorem State.cleared_reply (s : State) (r : Reply) : (s.reply r).cleared = s.cleared.reply r := rfl

/-- R220: RESET clears the block and answers `Ok`. -/
theorem exec_reset (s : State) : exec .reset s = .next (s.cleared.reply .done) := rfl

/-- R220: a second RESET only answers again. -/
theorem exec_reset_cleared (s : State) (r : Reply) :
    exec .reset (s.cleared.reply r) = .next ((s.cleared.reply r).reply .done) := by
  rw [exec_reset, State.cleared_reply, State.cleared_cleared]

/-- R147: DISP_READ hands over a copy of BITMAP and changes nothing. -/
theorem exec_dispRead (s : State) : exec .dispRead s = .next (s.reply (.bytes s.bitmap.copy)) := rfl

/-- R220: what the host is shown when it reads BITMAP and CRC_REG right after RESET. -/
theorem runOps_reset_dispRead_crcRead (s : State) :
    runOps [.reset, .dispRead, .crcRead] s =
      .next (((s.cleared.reply .done).reply (.bytes (List.replicate 1024 0x00#8))).reply (.word 0x0000#16)) := by
  have hreads := runOps_pair (exec_dispRead (s.cleared.reply .done)) (exec_crcRead _)
  simp only [State.reply_bitmap, State.cleared_bitmap, Memory.copy_nil, State.reply_crcReg, State.cleared_crcReg] at hreads
  rw [runOps_cons_of_next _ (exec_reset s), hreads]

end Sys2Proof.Machine

namespace Sys2Proof.Proofs

open Machine

/-- Settles O11: the model's own values are one choice that R5 allows. -/
theorem resetMeetsTheInvariant : Obligations.ResetMeetsTheInvariant := by
  have hconfig : Config.params.wf := by decide
  exact ⟨State.resetWith_inv hconfig, fun _ hp => State.resetWith_inv hp⟩

/-- Settles O19: RESET ends in the cleared block, which a second RESET and the two reads find as it is. -/
theorem resetSetsTheFourElements : Obligations.ResetSetsTheFourElements := by
  intro s
  refine ⟨⟨s.cleared.reply .done, exec_reset s, ?_⟩, ⟨_, runOps_reset_dispRead_crcRead s, ?_⟩⟩
  · exact ⟨s.cleared_crcReg, Memory.byteAt_nil, Memory.copy_nil, s.cleared_dispRx, s.cleared_cmdRx, s.cleared_params,
      s.cleared_inbox, rfl, exec_reset_cleared s .done⟩
  · simp only [State.reply_replies, State.cleared_replies, List.append_assoc, List.cons_append, List.nil_append]

end Sys2Proof.Proofs
end
